-- ==== Sys2Proof/Word.lean ====
section
/-! DEFINITION. The word type of the core and the index type of its register file. -/

namespace Sys2Proof

/-- The spec's `u8` (R9): every register, memory cell, operand and data address is an unsigned byte. -/
abbrev Byte := BitVec 8

/-- An index that names a register: 0 to 7 (R11, R15). -/
abbrev RegIndex := Fin 8

end Sys2Proof
end

