-- ==== Sys2Proof/Machine/Alu.lean ====
section
/-! DEFINITION. The ALU's register operations as a closed enumeration (R81, R82, R85). SUB is an ALU operation that no
instruction reaches (R86). CMP's part of the ALU is `compareFlags`. -/

namespace Sys2Proof.Machine

/-- The ALU operations that write a register (R81). Being a closed type, it leaves no "unsupported operation" to
report (R85, R112). -/
inductive AluOp where
  | add | sub | mul | inc | dec
  deriving DecidableEq, Repr

/-- `wrap8(v) = v mod 256`, for any integer (R9). -/
def wrap8 (v : Int) : Byte := BitVec.ofNat 8 (v % 256).toNat

/-- The exact integer result of an operation on `reg[a]` and `reg[b]`; INC and DEC take no second operand (R81). -/
def aluExact : AluOp → Int → Int → Int
  | .add, x, y => x + y
  | .sub, x, y => x - y
  | .mul, x, y => x * y
  | .inc, x, _ => x + 1
  | .dec, x, _ => x - 1

/-- The result the ALU writes: the exact integer result modulo 256 (R82). -/
def alu (op : AluOp) (x y : Byte) : Byte := wrap8 (aluExact op x.toNat y.toNat)

end Sys2Proof.Machine
end

