-- ==== Sys2Proof/Config.lean ====
section
/-! DEFINITION. The parameters of the hardware (R8), and what the spec leaves to the host's rendering of output.
The opcode assignment `OPC` is the parameter of `decodeWith` and `encodeWith`; its default stands in Decode.lean. -/

namespace Sys2Proof.Config

/-- `MEMSIZE`: 256 cells of 8 bits (R8, R27). -/
def memSize : Nat := 256

/-- `SP_INDEX`: R7 is the stack pointer (R8, R16). -/
def spIndex : RegIndex := 7

/-- `IM_INDEX`: R5, reserved by convention and inert (R8, R16, R20). -/
def imIndex : RegIndex := 5

/-- `IS_INDEX`: R6, reserved by convention and inert (R8, R16, R20). -/
def isIndex : RegIndex := 6

/-- `SP_RESET` (R8, R30). -/
def spReset : Byte := 0xF4

/-- `PC_RESET` (R8, R30). -/
def pcReset : Nat := 0

/-- `R_RESET`, the reset value of R0..R6: the spec's own decision D3 (R8, R30); log entry 2. -/
def rReset : Byte := 0x00

/-- The characters that end a line: "the host's choice" (R105); log entry 11. -/
opaque lineTerminator : String

/-- Whether the line has ended once a character of this value is shown: the host's (R106); log entry 11. -/
opaque charEndsLine : Byte → Bool

/-- The character a value 128..255 shows as: the host's character set (R106); log entry 11. -/
opaque highChar : Byte → Char

/-- The text of the report of an unrecognized opcode: the host's (R113); log entry 11. -/
opaque reportText : Byte → String

/-- Whether the report of an unrecognized opcode begins on a line of its own: the host's (R113); log entry 11. -/
opaque reportStartsLine : Byte → Bool

/-- Whether the line has ended once the report is shown: the host's (R113); log entry 11. -/
opaque reportEndsLine : Byte → Bool

end Sys2Proof.Config
end

