-- ==== Sys2Proof/Syntax.lean ====
section
/-! DEFINITION. The instructions: one constructor for each of the eighteen rows of the opcode table (R2, R55), with
the operand bytes R71 gives it. A register operand is the WHOLE operand byte (R52): a byte of 8 or more is a term of
this type, and executing it faults with BadRegister (R72). Bytes that an instruction ignores (R50) are no operands. -/

namespace Sys2Proof

/-- The eighteen mnemonics of the instruction set (R2). -/
inductive Mnemonic where
  | hlt | ldi | prn | pra | mul | add | inc | dec | push | pop | call | ret | cmp | jeq | jne | jmp | ld | st
  deriving DecidableEq, Repr

/-- The formats of R50. -/
inductive Format where
  /-- no operand -/
  | N
  /-- one register -/
  | R
  /-- two registers -/
  | RR
  /-- a register and an immediate -/
  | RI
  /-- two immediates -/
  | II
  deriving DecidableEq, Repr

/-- A decoded instruction with its operand bytes, in byte order (R61): `a` at pc+1, `b` at pc+2. -/
inductive Instr where
  /-- `HLT` (R102) -/
  | hlt
  /-- `LDI Ra, imm` (R92): register byte, immediate value -/
  | ldi (a imm : Byte)
  /-- `PRN Ra` (R103): register byte -/
  | prn (a : Byte)
  /-- `PRA Ra` (R104): register byte -/
  | pra (a : Byte)
  /-- `MUL Ra, Rb` (R87): register bytes -/
  | mul (a b : Byte)
  /-- `ADD Ra, Rb` (R88): register bytes -/
  | add (a b : Byte)
  /-- `INC Ra` (R89): register byte -/
  | inc (a : Byte)
  /-- `DEC Ra` (R90): register byte -/
  | dec (a : Byte)
  /-- `PUSH Ra` (R93): register byte -/
  | push (a : Byte)
  /-- `POP Ra` (R94): register byte -/
  | pop (a : Byte)
  /-- `CALL Ra` (R97): register byte -/
  | call (a : Byte)
  /-- `RET` (R98) -/
  | ret
  /-- `CMP Ra, Rb` (R91): register bytes -/
  | cmp (a b : Byte)
  /-- `JEQ Ra` (R99): register byte -/
  | jeq (a : Byte)
  /-- `JNE Ra` (R100): register byte -/
  | jne (a : Byte)
  /-- `JMP Ra` (R101): register byte -/
  | jmp (a : Byte)
  /-- `LD Ra, Rb` (R95): register bytes -/
  | ld (a b : Byte)
  /-- `ST addr, imm` (R96): immediate address, immediate value -/
  | st (addr imm : Byte)
  deriving DecidableEq, Repr

end Sys2Proof
end

