-- ==== Sys2Proof/WellFormed.lean ====
section
/-! DEFINITION. Which instruction terms are well formed: "The only illegal operand values are register-index bytes of
8 or more" (R59). An ill-formed term still decodes and still has a meaning: it faults with BadRegister (R72). -/

namespace Sys2Proof

/-- The operand bytes in a register position of R71, `a` before `b`, the order in which R72 checks them. -/
def Instr.regOperands : Instr → List Byte
  | .hlt => []
  | .ldi a _ => [a]
  | .prn a => [a]
  | .pra a => [a]
  | .mul a b => [a, b]
  | .add a b => [a, b]
  | .inc a => [a]
  | .dec a => [a]
  | .push a => [a]
  | .pop a => [a]
  | .call a => [a]
  | .ret => []
  | .cmp a b => [a, b]
  | .jeq a => [a]
  | .jne a => [a]
  | .jmp a => [a]
  | .ld a b => [a, b]
  | .st _ _ => []

/-- Every register operand names one of the eight registers (R52, R59). -/
def Instr.wellFormed (i : Instr) : Bool :=
  i.regOperands.all fun b => decide (b.toNat < 8)

end Sys2Proof
end

