-- ==== Sys2Proof/Decode.lean ====
section
/-! DEFINITION. The opcode map, the decoder and the encoder (R49 to R60). Decoding matches the whole opcode byte
exactly against a map from mnemonics to bytes; the map is a parameter (`OPC` of R8 and R55) with R55's table as its
default. -/

namespace Sys2Proof

/-- The three bytes a fetch latches for the whole step (R28, R68). -/
structure Latch where
  opcode : Byte
  a : Byte
  b : Byte
  deriving DecidableEq, Repr

/-- Why no instruction is decoded. -/
inductive DecodeError where
  /-- The opcode byte has no row in the opcode table (R58, R70). -/
  | unrecognized (op : Byte)
  deriving DecidableEq, Repr

/-- Every mnemonic, in the order of R55's table. -/
def allMnemonics : List Mnemonic :=
  [.hlt, .ldi, .prn, .pra, .mul, .add, .inc, .dec, .push, .pop, .call, .ret, .cmp, .jeq, .jne, .jmp, .ld, .st]

/-- An opcode assignment: the parameter `OPC` (R8, R55). -/
abbrev OpcodeMap := Mnemonic → Byte

/-- R55's table, the default of `OPC`. HLT, LDI and PRN are the source's; the other fifteen values are general
knowledge (the spec's decision D1). PRESUMED, log entry 1. -/
def opcodeMap : OpcodeMap
  | .hlt => 0x01
  | .ldi => 0x82
  | .prn => 0x47
  | .pra => 0x48
  | .mul => 0xA2
  | .add => 0xA0
  | .inc => 0x65
  | .dec => 0x66
  | .push => 0x45
  | .pop => 0x46
  | .call => 0x50
  | .ret => 0x11
  | .cmp => 0xA7
  | .jeq => 0x55
  | .jne => 0x56
  | .jmp => 0x54
  | .ld => 0x83
  | .st => 0x84

/-- The format of each mnemonic (R50). -/
def formatOf : Mnemonic → Format
  | .hlt | .ret => .N
  | .prn | .pra | .inc | .dec | .push | .pop | .call | .jeq | .jne | .jmp => .R
  | .mul | .add | .cmp | .ld => .RR
  | .ldi => .RI
  | .st => .II

/-- How many operand bytes a format has (R49, R50). -/
def operandCount : Format → Nat
  | .N => 0
  | .R => 1
  | .RR | .RI | .II => 2

/-- The instruction a mnemonic and the two latched operand bytes stand for (R50, R71); bytes beyond the
instruction's length are ignored (R51, R57). -/
def buildInstr : Mnemonic → Byte → Byte → Instr
  | .hlt, _, _ => .hlt
  | .ldi, a, b => .ldi a b
  | .prn, a, _ => .prn a
  | .pra, a, _ => .pra a
  | .mul, a, b => .mul a b
  | .add, a, b => .add a b
  | .inc, a, _ => .inc a
  | .dec, a, _ => .dec a
  | .push, a, _ => .push a
  | .pop, a, _ => .pop a
  | .call, a, _ => .call a
  | .ret, _, _ => .ret
  | .cmp, a, b => .cmp a b
  | .jeq, a, _ => .jeq a
  | .jne, a, _ => .jne a
  | .jmp, a, _ => .jmp a
  | .ld, a, b => .ld a b
  | .st, a, b => .st a b

/-- The mnemonic whose opcode byte is exactly `op`, if there is one (R54). -/
def lookupOpcode (opc : OpcodeMap) (op : Byte) : Option Mnemonic :=
  allMnemonics.find? fun m => opc m == op

/-- Decode of the three latched bytes under an opcode assignment (R54, R69, R70). -/
def decodeWith (opc : OpcodeMap) (l : Latch) : Except DecodeError Instr :=
  match lookupOpcode opc l.opcode with
  | some m => .ok (buildInstr m l.a l.b)
  | none => .error (.unrecognized l.opcode)

/-- Decode under R55's table. -/
def decode (l : Latch) : Except DecodeError Instr := decodeWith opcodeMap l

/-- The mnemonic of an instruction. -/
def mnemonicOf : Instr → Mnemonic
  | .hlt => .hlt
  | .ldi _ _ => .ldi
  | .prn _ => .prn
  | .pra _ => .pra
  | .mul _ _ => .mul
  | .add _ _ => .add
  | .inc _ => .inc
  | .dec _ => .dec
  | .push _ => .push
  | .pop _ => .pop
  | .call _ => .call
  | .ret => .ret
  | .cmp _ _ => .cmp
  | .jeq _ => .jeq
  | .jne _ => .jne
  | .jmp _ => .jmp
  | .ld _ _ => .ld
  | .st _ _ => .st

/-- An instruction's length in bytes: the opcode and its operands (R49, R54). -/
def instrLength (i : Instr) : Nat := 1 + operandCount (formatOf (mnemonicOf i))

/-- The operand bytes of an instruction in ascending address order (R37, R50). -/
def operandBytes : Instr → List Byte
  | .hlt => []
  | .ldi a imm => [a, imm]
  | .prn a => [a]
  | .pra a => [a]
  | .mul a b => [a, b]
  | .add a b => [a, b]
  | .inc a => [a]
  | .dec a => [a]
  | .push a => [a]
  | .pop a => [a]
  | .call a => [a]
  | .ret => []
  | .cmp a b => [a, b]
  | .jeq a => [a]
  | .jne a => [a]
  | .jmp a => [a]
  | .ld a b => [a, b]
  | .st addr imm => [addr, imm]

/-- The bytes of an instruction under an opcode assignment: the opcode byte, then the operands (R37, R49). -/
def encodeWith (opc : OpcodeMap) (i : Instr) : List Byte := opc (mnemonicOf i) :: operandBytes i

/-- The bytes of an instruction under R55's table. -/
def encode (i : Instr) : List Byte := encodeWith opcodeMap i

/-- The latch a fetch makes of the first three of some bytes, none if there are fewer. -/
def latchOf : List Byte → Option Latch
  | op :: a :: b :: _ => some ⟨op, a, b⟩
  | _ => none

/-- Byte `k` of the lowest `nbits` bits of `w`, numbered as the opcode table numbers them: byte 0 is the first byte
of the instruction. -/
def tableByte (nbits w k : Nat) : Byte := BitVec.ofNat 8 ((w % 2 ^ nbits) / 2 ^ (8 * k))

/-- The three bytes of a table word, in ascending address order (R37), zero above `nbits`. -/
def tableBytes (nbits w : Nat) : List Byte := [tableByte nbits w 0, tableByte nbits w 1, tableByte nbits w 2]

/-- The instruction the decoder reads from a word numbered as the opcode table numbers its bits. -/
def decodeTableWord (nbits w : Nat) : Option Instr :=
  match decode ⟨tableByte nbits w 0, tableByte nbits w 1, tableByte nbits w 2⟩ with
  | .ok i => some i
  | .error _ => none

end Sys2Proof
end

