-- ==== Sys2Proof/Machine/State.lean ====
section
/-! DEFINITION. The complete state of the core, "the tuple (x[0..7], pc, FL.E, FL.L, FL.G, mem[0..255], status,
out); nothing else is state" (10_state.md), and the state after reset (R30, R124). -/

namespace Sys2Proof.Machine

/-- The reasons of the spec's `Faulted(reason)` (R25, R107). A fault is TAKEN: the operation that raises it ends the
instruction, and the machine goes to a next state whose only change is the status (R109), so `step` never answers
`Host.Outcome.fault` (log entry 3). -/
inductive Fault where
  /-- `AddressOutOfRange(addr)` (R33, R111). Raised by `memRead` and `memWrite` at an address above 255, which only the
  fetch reaches (R35). Safe: it ends a run where a core that wrapped the address would go on (D4). -/
  | addressOutOfRange (addr : Nat)
  /-- `BadRegister(byte)` (R72, R110). Raised by `regIndex`, so by every instruction with a register operand of 8 or
  more. Safe: it ends a run where a core that masked the index would go on (D5). -/
  | badRegister (byte : Byte)
  deriving DecidableEq, Repr

/-- Why `exec` would give an instruction no meaning. -/
inductive Refusal where
  /-- The instruction has no meaning in this model. Every instruction of this hardware has one, so nothing raises it.
  Safe. -/
  | notModelled (mnemonic : String)
  deriving DecidableEq, Repr

/-- The reasons of `Halted(reason)` (R25). -/
inductive HaltReason where
  /-- HLT was executed (R102). -/
  | hlt
  /-- The opcode byte has no row in the opcode table (R70). -/
  | unrecognized (op : Byte)
  deriving DecidableEq, Repr

/-- The run status (R25). Only `running` takes steps; the others are terminal (R79). -/
inductive Status where
  | running
  | halted (reason : HaltReason)
  | faulted (reason : Fault)
  deriving DecidableEq, Repr

/-- An event of the output stream (R26). -/
inductive OutEvent where
  /-- `OutDec(v)`, from PRN (R103) -/
  | outDec (v : Byte)
  /-- `OutChar(v)`, from PRA (R104) -/
  | outChar (v : Byte)
  /-- `Unrecognized(op)`, from the decode of an unrecognized opcode (R70) -/
  | unrecognized (op : Byte)
  deriving DecidableEq, Repr

/-- The three independent comparison flags (R23): Equal, Less-than, Greater-than. They have no byte form (R24). -/
structure Flags where
  E : Bool
  L : Bool
  G : Bool
  deriving DecidableEq, Repr

/-- Memory as the list of the cells that do not hold 0x00, in ascending address order (R27, R32); log entry 6. -/
abbrev Memory := List Host.Cell

/-- What a cell that is not listed holds: every cell is 0x00 after reset (R30). -/
def Memory.unlisted : Byte := 0x00

/-- The canonical form: addresses strictly rising and inside the 256 cells, no cell listed that holds 0x00. -/
abbrev Memory.wf (m : Memory) : Prop :=
  m.Pairwise (fun c d => c.1 < d.1) ∧ ∀ c ∈ m, c.1 < Config.memSize ∧ c.2 ≠ Memory.unlisted

/-- The state of the core. -/
structure State where
  /-- R0..R7 (R15); R5 = IM, R6 = IS, R7 = SP (R16) -/
  regs : Vector Byte 8
  /-- the program counter, a natural number (R21) -/
  pc : Nat
  /-- the sticky comparison flags (R23) -/
  flags : Flags
  /-- the 256 cells (R27) -/
  mem : Memory
  /-- the run status (R25) -/
  status : Status
  /-- the output stream, oldest event first (R26) -/
  out : List OutEvent
  deriving DecidableEq, Repr

/-- The state after reset (R30, R124) for a given reset value of R0..R6, the parameter `R_RESET` (R8). -/
def State.resetWith (r : Byte) : State where
  regs := #v[r, r, r, r, r, r, r, Config.spReset]
  pc := Config.pcReset
  flags := ⟨false, false, false⟩
  mem := []
  status := .running
  out := []

/-- The state after reset, before the host loads an image (R30, R124). -/
def State.reset : State := State.resetWith Config.rReset

end Sys2Proof.Machine
end

