-- ==== Sys2Proof/Machine/Flags.lean ====
section
/-! DEFINITION. The one flag computation of the core: CMP's (R83, R84, R91). -/

namespace Sys2Proof.Machine

/-- CMP's flags for the values `va` and `vb`: `diff = vb - va` as an exact integer sets Less, Greater or Equal (R83);
no flag is ever cleared (R84). -/
def compareFlags (va vb : Byte) (f : Flags) : Flags :=
  let diff : Int := (vb.toNat : Int) - (va.toNat : Int)
  if diff > 0 then { f with L := true }
  else if diff < 0 then { f with G := true }
  else { f with E := true }

end Sys2Proof.Machine
end

