-- ==== Sys2Proof/Machine/Operands.lean ====
section
/-! DEFINITION. The operand forms (R52, R53, R71). An immediate operand is the operand byte itself, unsigned and not
extended (R53), so it needs no operation; a register operand is checked and becomes a register index. -/

namespace Sys2Proof.Machine

/-- `reg(b)` of R10: the register an operand byte names; a byte of 8 or more raises `BadRegister` (R52, R72). -/
def regIndex (b : Byte) : Except Fault RegIndex :=
  if h : b.toNat < 8 then .ok ⟨b.toNat, h⟩ else .error (.badRegister b)

end Sys2Proof.Machine
end

