-- ==== Sys2Proof/Machine/Ops.lean ====
section
/-! DEFINITION. The named operations over registers, memory, output and status that the instructions share: the
pseudocode primitives of R10, the fetch (R68) and the taking of a fault (R109). -/

namespace Sys2Proof.Machine

/-! ## Registers and program counter -/

/-- `x[r]` (R10). -/
def State.reg (s : State) (r : RegIndex) : Byte := s.regs[r.val]

/-- `x[r] <- v` (R10). No register is hardwired (R15). -/
def State.setReg (r : RegIndex) (v : Byte) (s : State) : State := { s with regs := s.regs.set r.val v }

/-- The stack pointer, R7 (R16). -/
abbrev SP : RegIndex := Config.spIndex

/-- `pc <- pc + n`, the sequential update of an instruction of `n` bytes (R22, R73); it does not wrap. -/
def advance (n : Nat) (s : State) : State := { s with pc := s.pc + n }

/-- `pc <- target` for a target byte: the target exactly (R73). -/
def jumpTo (target : Byte) (s : State) : State := { s with pc := target.toNat }

/-- The flags written as a whole; only CMP does so (R23). -/
def State.setFlags (f : Flags) (s : State) : State := { s with flags := f }

/-- `x[7] <- wrap8(x[7] - 1)`: SP is an ordinary register and wraps (R42). -/
def decSP (s : State) : State := s.setReg SP (alu .dec (s.reg SP) 0)

/-- `x[7] <- wrap8(x[7] + 1)` (R42). -/
def incSP (s : State) : State := s.setReg SP (alu .inc (s.reg SP) 0)

/-! ## Memory -/

/-- The byte in cell `x`. -/
def Memory.get : Memory → Nat → Byte
  | [], _ => Memory.unlisted
  | c :: m, x => if c.1 = x then c.2 else Memory.get m x

/-- A cell put before the first cell of a higher address. -/
def Memory.insertCell (a : Nat) (v : Byte) : Memory → Memory
  | [] => [(a, v)]
  | c :: m => if a < c.1 then (a, v) :: c :: m else c :: Memory.insertCell a v m

/-- Cell `a` set to `v`, in canonical form: a cell that comes to hold what an unlisted cell holds is not listed. -/
def Memory.set (m : Memory) (a : Nat) (v : Byte) : Memory :=
  let rest := m.filter fun c => c.1 != a
  if v = Memory.unlisted then rest else Memory.insertCell a v rest

/-- Some bytes stored at ascending addresses from `base` (R37). -/
def storeBytes (base : Nat) : List Byte → Memory → Memory
  | [], m => m
  | v :: vs, m => storeBytes (base + 1) vs (m.set base v)

/-- The memory of `s` replaced. -/
def State.setMem (m : Memory) (s : State) : State := { s with mem := m }

/-- `MemRead(addr, 1)` (R10, R33): no side effect (R40); an address above 255 raises `AddressOutOfRange`. -/
def memRead (addr : Nat) (s : State) : Except Fault Byte :=
  if addr < Config.memSize then .ok (s.mem.get addr) else .error (.addressOutOfRange addr)

/-- `MemWrite(addr, 1, v)` (R10, R33); an address above 255 raises `AddressOutOfRange` and nothing is written. -/
def memWrite (addr : Nat) (v : Byte) (s : State) : Except Fault State :=
  if addr < Config.memSize then .ok (s.setMem (s.mem.set addr v)) else .error (.addressOutOfRange addr)

/-- The return address CALL pushes: the address after CALL and its operand (R97). For `pc <= 253`, the only addresses
an instruction executes at (R68), it is `pc + 2` exactly; log entry 7. -/
def returnAddress (s : State) : Byte := wrap8 (s.pc + 2)

/-! ## Output and status -/

/-- `emit(ev)`: append to the output stream (R10, R26). -/
def emit (ev : OutEvent) (s : State) : State := { s with out := s.out ++ [ev] }

/-- `halt(reason)` (R10). -/
def halt (reason : HaltReason) (s : State) : State := { s with status := .halted reason }

/-- TAKING A FAULT, the one abnormal entry of this core: `Faulted(reason)`, and nothing else changes; pc stays at the
instruction (R108, R109). No state is saved, there is no handler and no return from a fault (R116). -/
def takeFault (reason : Fault) (s : State) : State := { s with status := .faulted reason }

/-- The report of an unrecognized opcode: the event, then the halt; pc stays at the byte (R70). -/
def reportUnrecognized (op : Byte) (s : State) : State := halt (.unrecognized op) (emit (.unrecognized op) s)

/-- An instruction's outcome at `s` from its body: the body's state, or, where the body raises a fault, that fault
taken at `s`, every effect of the body discarded (R10, R76, R109). -/
def perform (s : State) (body : Except Fault State) : Host.Outcome State Fault Refusal :=
  match body with
  | .ok t => .next t
  | .error reason => .next (takeFault reason s)

/-! ## Fetch -/

/-- The three bytes at `pc`, `pc+1`, `pc+2`, read in that order at every step (R68, R111). -/
def fetch (s : State) : Except Fault Latch := do
  let opcode ← memRead s.pc s
  let a ← memRead (s.pc + 1) s
  let b ← memRead (s.pc + 2) s
  return ⟨opcode, a, b⟩

end Sys2Proof.Machine
end

