-- ==== Sys2Proof/Machine/Arithmetic.lean ====
section
/-! DEFINITION. The ALU instructions MUL, ADD, INC, DEC, CMP (41_alu.md). Each body is its rule's pseudocode; the
register checks come first, `a` before `b` (R72). -/

namespace Sys2Proof.Machine

/-- MUL (R87): `x[ra] <- wrap8(x[ra] * x[rb])`. -/
def execMul (a b : Byte) (s : State) : Host.Outcome State Fault Refusal :=
  perform s do
    let ra ← regIndex a
    let rb ← regIndex b
    return advance 3 (s.setReg ra (alu .mul (s.reg ra) (s.reg rb)))

/-- ADD (R88): `x[ra] <- wrap8(x[ra] + x[rb])`; there is no carry flag. -/
def execAdd (a b : Byte) (s : State) : Host.Outcome State Fault Refusal :=
  perform s do
    let ra ← regIndex a
    let rb ← regIndex b
    return advance 3 (s.setReg ra (alu .add (s.reg ra) (s.reg rb)))

/-- INC (R89): `x[ra] <- wrap8(x[ra] + 1)`. -/
def execInc (a : Byte) (s : State) : Host.Outcome State Fault Refusal :=
  perform s do
    let ra ← regIndex a
    return advance 2 (s.setReg ra (alu .inc (s.reg ra) 0))

/-- DEC (R90): `x[ra] <- wrap8(x[ra] - 1)`. -/
def execDec (a : Byte) (s : State) : Host.Outcome State Fault Refusal :=
  perform s do
    let ra ← regIndex a
    return advance 2 (s.setReg ra (alu .dec (s.reg ra) 0))

/-- CMP (R91): sets one sticky flag; no register or memory is written. -/
def execCmp (a b : Byte) (s : State) : Host.Outcome State Fault Refusal :=
  perform s do
    let ra ← regIndex a
    let rb ← regIndex b
    return advance 3 (s.setFlags (compareFlags (s.reg ra) (s.reg rb) s.flags))

end Sys2Proof.Machine
end

