-- ==== Sys2Proof/Machine/ControlTransfer.lean ====
section
/-! DEFINITION. The control-transfer instructions CALL, RET, JEQ, JNE, JMP (43_control_transfer.md). Every target is
absolute, and a register operand is checked even where the jump is not taken (R72). -/

namespace Sys2Proof.Machine

/-- CALL (R97): SP is decremented, the return address written there, and the target register read after that (D10). -/
def execCall (a : Byte) (s : State) : Host.Outcome State Fault Refusal :=
  perform s do
    let ra ← regIndex a
    let s1 := decSP s
    let s2 ← memWrite (s1.reg SP).toNat (returnAddress s) s1
    return jumpTo (s2.reg ra) s2

/-- RET (R98): pc from the byte at SP, then SP is incremented. -/
def execRet (s : State) : Host.Outcome State Fault Refusal :=
  perform s do
    let target ← memRead (s.reg SP).toNat s
    return incSP (jumpTo target s)

/-- JEQ (R99): taken when `FL.E` is true. -/
def execJeq (a : Byte) (s : State) : Host.Outcome State Fault Refusal :=
  perform s do
    let ra ← regIndex a
    return if s.flags.E then jumpTo (s.reg ra) s else advance 2 s

/-- JNE (R100): taken when `FL.E` is false. -/
def execJne (a : Byte) (s : State) : Host.Outcome State Fault Refusal :=
  perform s do
    let ra ← regIndex a
    return if s.flags.E then advance 2 s else jumpTo (s.reg ra) s

/-- JMP (R101). -/
def execJmp (a : Byte) (s : State) : Host.Outcome State Fault Refusal :=
  perform s do
    let ra ← regIndex a
    return jumpTo (s.reg ra) s

end Sys2Proof.Machine
end

