-- ==== Sys2Proof/Machine/DataMovement.lean ====
section
/-! DEFINITION. The data-movement and stack instructions LDI, PUSH, POP, LD, ST (42_data_movement.md). Each body is its
rule's pseudocode, statement by statement, each seeing the effects of the ones before (R75). -/

namespace Sys2Proof.Machine

/-- LDI (R92): the immediate byte, unchanged. -/
def execLdi (a imm : Byte) (s : State) : Host.Outcome State Fault Refusal :=
  perform s do
    let ra ← regIndex a
    return advance 3 (s.setReg ra imm)

/-- PUSH (R93): SP is decremented first; the register is read after the decrement (D10). -/
def execPush (a : Byte) (s : State) : Host.Outcome State Fault Refusal :=
  perform s do
    let ra ← regIndex a
    let s1 := decSP s
    let s2 ← memWrite (s1.reg SP).toNat (s1.reg ra) s1
    return advance 2 s2

/-- POP (R94): the byte at SP goes to the register, then SP is incremented (D10). -/
def execPop (a : Byte) (s : State) : Host.Outcome State Fault Refusal :=
  perform s do
    let ra ← regIndex a
    let v ← memRead (s.reg SP).toNat s
    return advance 2 (incSP (s.setReg ra v))

/-- LD (R95): register indirect. -/
def execLd (a b : Byte) (s : State) : Host.Outcome State Fault Refusal :=
  perform s do
    let ra ← regIndex a
    let rb ← regIndex b
    let v ← memRead (s.reg rb).toNat s
    return advance 3 (s.setReg ra v)

/-- ST (R96): the raw operand bytes, address then value; neither is a register index. -/
def execSt (addr imm : Byte) (s : State) : Host.Outcome State Fault Refusal :=
  perform s do
    let s1 ← memWrite addr.toNat imm s
    return advance 3 s1

end Sys2Proof.Machine
end

