-- ==== Sys2Proof/Machine/SystemOutput.lean ====
section
/-! DEFINITION. The halt and output instructions HLT, PRN, PRA (44_system_output.md). -/

namespace Sys2Proof.Machine

/-- HLT (R74, R102): pc advances by one, then the core halts. -/
def execHlt (s : State) : Host.Outcome State Fault Refusal :=
  perform s (.ok (halt .hlt (advance 1 s)))

/-- PRN (R103): the register as a number. -/
def execPrn (a : Byte) (s : State) : Host.Outcome State Fault Refusal :=
  perform s do
    let ra ← regIndex a
    return advance 2 (emit (.outDec (s.reg ra)) s)

/-- PRA (R104): the register as a character. -/
def execPra (a : Byte) (s : State) : Host.Outcome State Fault Refusal :=
  perform s do
    let ra ← regIndex a
    return advance 2 (emit (.outChar (s.reg ra)) s)

end Sys2Proof.Machine
end

