-- ==== Sys2Proof/Machine/Cycle.lean ====
section
/-! DEFINITION. The fetch-decode-execute cycle (R67) under an opcode assignment, and the debug trace's sample (R121). -/

namespace Sys2Proof.Machine

/-- One step of the core under the opcode assignment `opc` (R67): fetch, decode, and the instruction, whose meaning
makes the register checks first. A core that is not running takes no step: its state stays (R79; log entry 4). -/
def cycle (opc : OpcodeMap) (s : State) : Host.Outcome State Fault Refusal :=
  match s.status with
  | .running =>
    match fetch s with
    | .error reason => .next (takeFault reason s)
    | .ok l =>
      match decodeWith opc l with
      | .error (.unrecognized op) => .next (reportUnrecognized op s)
      | .ok i => exec i s
  | .halted _ => .next s
  | .faulted _ => .next s

/-- What a debug trace samples after the fetch and before the execute part (R121). -/
structure TraceSample where
  pc : Nat
  latch : Latch
  regs : Vector Byte 8
  deriving DecidableEq, Repr

/-- The sample of the step that `s` is about to take, none where no fetch completes. It reads the state and changes
nothing (R121; log entry 12). -/
def traceSample (s : State) : Option TraceSample :=
  match s.status with
  | .running =>
    match fetch s with
    | .error _ => none
    | .ok l => some ⟨s.pc, l, s.regs⟩
  | .halted _ => none
  | .faulted _ => none

end Sys2Proof.Machine
end

