-- ==== Sys2Proof/Machine/Step.lean ====
section
/-! DEFINITION. The step of the core under R55's opcode table, and the placing of one instruction at the fetch. -/

namespace Sys2Proof.Machine

/-- One step (R67), with the default of the parameter `OPC`. -/
def step (s : State) : Host.Outcome State Fault Refusal := cycle opcodeMap s

/-- `s` with the three bytes of a table word stored where the next step fetches. Where `s` runs and its pc is at most
253, only memory changes; else what the fetch needs is set as well: the status `running`, and pc 0 for a pc from which
no fetch completes (log entry 9). -/
def State.withFetchWord (s : State) (nbits w : Nat) : State :=
  let at_ := if s.pc + 2 < Config.memSize then s.pc else Config.pcReset
  { s with pc := at_, status := .running, mem := storeBytes at_ (tableBytes nbits w) s.mem }

end Sys2Proof.Machine
end

