-- ==== Sys2Proof/Machine/Output.lean ====
section
/-! DEFINITION. How the host shows the output events, as far as the spec fixes it (R105, R106, R113): a number is a
decimal numeral on its own line. The open parts are constants of Config without a value; no step of the core depends on
this file (log entry 11). -/

namespace Sys2Proof.Machine

/-- What the host shows: the lines that have ended, first line first, and the text of the line not yet ended. -/
structure Display where
  lines : List String
  current : String
  deriving DecidableEq, Repr

/-- A display that shows nothing. -/
def emptyDisplay : Display := ⟨[], ""⟩

/-- The line that is begun, if there is one, has ended. -/
def Display.endLine (d : Display) : Display :=
  if d.current = "" then d else ⟨d.lines ++ [d.current], ""⟩

/-- Text added to the line that is not yet ended. -/
def Display.addText (text : String) (d : Display) : Display := { d with current := d.current ++ text }

/-- Text on its own line: a line begun before it has ended, and nothing follows it on its line. -/
def Display.addLine (text : String) (d : Display) : Display := ⟨d.endLine.lines ++ [text], ""⟩

/-- The single character whose code point is the value (R106); the character set of 128..255 is the host's. -/
def shownChar (v : Byte) : Char := if v.toNat < 128 then Char.ofNat v.toNat else Config.highChar v

/-- The display after the host shows an event: the decimal numeral on its own line (R105), the character, after which
the host may end the line (R106), or the report of the opcode, before and after which the host may end the line
(R113). -/
def renderEvent (d : Display) : OutEvent → Display
  | .outDec v => d.addLine (toString v.toNat)
  | .outChar v =>
    let d1 := d.addText (String.singleton (shownChar v))
    if Config.charEndsLine v then d1.endLine else d1
  | .unrecognized op =>
    let d1 := if Config.reportStartsLine op then d.endLine else d
    let d2 := d1.addText (Config.reportText op)
    if Config.reportEndsLine op then d2.endLine else d2

/-- The host's display of an output stream: its events shown in order (R26). -/
def displayOf (out : List OutEvent) : Display := out.foldl renderEvent emptyDisplay

/-- The text of the display of an output stream: every ended line with the host's terminator (R105), then the line not
yet ended. -/
def renderStream (out : List OutEvent) : String :=
  String.join ((displayOf out).lines.map fun line => line ++ Config.lineTerminator) ++ (displayOf out).current

end Sys2Proof.Machine
end

