-- ==== Sys2Proof/Machine/Boot.lean ====
section
/-! DEFINITION. What the host does before a run: reset, then the load of an image (R123, R126, R127). -/

namespace Sys2Proof.Machine

/-- The image's bytes written to `mem[0 .. n-1]` in order; the core takes no step (R127). An image of more than 256
bytes is not loaded and no run starts with it (R128; log entry 10). -/
def loadImage (img : List Byte) (s : State) : Option State :=
  if img.length ≤ Config.memSize then some (s.setMem (storeBytes 0 img s.mem)) else none

/-- Reset, then load: the state in which the host starts a run (R126). -/
def boot (img : List Byte) : Option State := loadImage img State.reset

end Sys2Proof.Machine
end

