-- ==== Sys2Proof/Safety.lean ====
section
/-! DEFINITION. The terms in which claims about runs are stated: when a run has ended and how, what an instruction
leaves unchanged, and the invariant of the states a run can reach. -/

namespace Sys2Proof.Machine

/-- The run has ended: the status is terminal (R79, R80). -/
def State.ended (s : State) : Prop := s.status ≠ .running

/-- The run has failed: "a model should treat `Faulted` as a failure of the run" (R108). -/
def State.failed (s : State) : Prop := ∃ reason, s.status = .faulted reason

/-- Every register outside `rs` is unchanged from `s` to `t`. -/
def regsSameExcept (rs : List RegIndex) (s t : State) : Prop := ∀ r, r ∉ rs → t.reg r = s.reg r

/-- Every address reads in `t` as it reads in `s`. -/
def memSame (s t : State) : Prop := ∀ x, memRead x t = memRead x s

/-- Every address but `a` reads in `t` as it reads in `s`. -/
def memSameExcept (a : Nat) (s t : State) : Prop := ∀ x, x ≠ a → memRead x t = memRead x s

/-- From `s` to `t` only the registers in `rs` and the pc may differ: no memory byte, flag, output event or status. -/
def onlyRegsChange (rs : List RegIndex) (s t : State) : Prop :=
  regsSameExcept rs s t ∧ memSame s t ∧ t.flags = s.flags ∧ t.out = s.out ∧ t.status = s.status

/-- From `s` to `t` only the byte at `a`, the registers in `rs` and the pc may differ. -/
def onlyStoresAt (a : Nat) (rs : List RegIndex) (s t : State) : Prop :=
  regsSameExcept rs s t ∧ memSameExcept a s t ∧ t.flags = s.flags ∧ t.out = s.out ∧ t.status = s.status

/-- `s` stands on a step's fetch of the bytes `op`, `a`, `b` at the pc (R68). -/
def fetches (s : State) (op a b : Byte) : Prop :=
  memRead s.pc s = .ok op ∧ memRead (s.pc + 1) s = .ok a ∧ memRead (s.pc + 2) s = .ok b

/-- What a terminal status says of the state it was reached in: a halt by HLT stands one past a HLT (R102); an
unrecognized opcode stands at the pc, has no table row, and was the last thing reported (R70); an out-of-range fetch
recorded address 256 (R111 with R21); a bad register operand is 8 or more and is an operand byte at the pc (R72). -/
def statusJustified (s : State) : Prop :=
  match s.status with
  | .running => True
  | .halted .hlt => 1 ≤ s.pc ∧ s.pc ≤ 254 ∧ memRead (s.pc - 1) s = .ok (opcodeMap .hlt)
  | .halted (.unrecognized op) =>
    memRead s.pc s = .ok op ∧ lookupOpcode opcodeMap op = none ∧ s.out.getLast? = some (.unrecognized op)
  | .faulted (.addressOutOfRange addr) => addr = 256 ∧ 254 ≤ s.pc
  | .faulted (.badRegister byte) =>
    8 ≤ byte.toNat ∧ (memRead (s.pc + 1) s = .ok byte ∨ memRead (s.pc + 2) s = .ok byte)

/-- The invariant of the core: memory is in canonical form, the pc is at most 256 (R21), and a terminal status is
justified by the state. -/
structure Inv (s : State) : Prop where
  memory : s.mem.wf
  pc_le : s.pc ≤ 256
  status : statusJustified s

end Sys2Proof.Machine
end

