-- ==== Sys2Proof/Certificates/Slice0/Obligations.lean ====
section
/-! DEFINITION. The statements for the provers. A docstring names the rule of spec/ a statement formalises; where the
statement rests on a decision the spec marks as its own (D<n> of 92_eei_decisions.md), on general knowledge, or on a
choice of this model (a log entry), the docstring says so. -/

open Sys2Proof
open Sys2Proof.Machine

/-! ## Encoding -/

/-- Decode and encode agree, for every instruction, every operand value, whatever bytes follow, and under EVERY
injective opcode assignment (the parameter `OPC` of R8 and D1): R49, R50, R51, R54. -/
def Obligations.DecodingAnEncodingGivesTheInstruction : Prop :=
  ∀ opc : OpcodeMap, Function.Injective opc → ∀ (i : Instr) (x y : Byte) (rest : List Byte),
    ∃ l, latchOf (encodeWith opc i ++ x :: y :: rest) = some l ∧ decodeWith opc l = .ok i

/-- The other direction: an instruction that was decoded encodes to the bytes it was decoded from, as many as its
length (R49, R50). -/
def Obligations.EncodingADecodedInstructionGivesItsBytes : Prop :=
  ∀ (opc : OpcodeMap) (l : Latch) (i : Instr), decodeWith opc l = .ok i →
    encodeWith opc i = [l.opcode, l.a, l.b].take (instrLength i)

/-- R64, the source's one worked encoding. -/
def Obligations.SourceExampleEncodings : Prop :=
  encode (.ldi 0 8) = [0x82, 0x00, 0x08] ∧ encode (.prn 0) = [0x47, 0x00] ∧ encode .hlt = [0x01] ∧
    decode ⟨0x82, 0x00, 0x08⟩ = .ok (.ldi 0 8) ∧ decode ⟨0x47, 0x00, 0x01⟩ = .ok (.prn 0) ∧
    decode ⟨0x01, 0x00, 0x00⟩ = .ok .hlt

/-- Words written out from the binary column of R55's table decode to their instructions. The opcode bytes are general
knowledge (D1, log entry 1). -/
def Obligations.OpcodeTableWordsDecode : Prop :=
  decode ⟨0b10100010, 0x03, 0x05⟩ = .ok (.mul 3 5) ∧ decode ⟨0b01100101, 0x06, 0xFF⟩ = .ok (.inc 6) ∧
    decode ⟨0b01000101, 0x07, 0x00⟩ = .ok (.push 7) ∧ decode ⟨0b01010110, 0x02, 0x00⟩ = .ok (.jne 2) ∧
    decode ⟨0b00010001, 0x09, 0x09⟩ = .ok .ret ∧ decode ⟨0b10000100, 0x40, 0xFF⟩ = .ok (.st 0x40 0xFF) ∧
    decode ⟨0b10100111, 0x09, 0x08⟩ = .ok (.cmp 9 8) ∧ decode ⟨0b01001000, 0x06, 0x01⟩ = .ok (.pra 6)

/-- R54: the whole opcode byte is matched exactly, whatever the operand bytes; the length is the one of the matched
row, and it is the instruction's sequential pc advance. -/
def Obligations.DecodingMatchesTheWholeOpcodeByte : Prop :=
  (∀ opc : OpcodeMap, Function.Injective opc → ∀ l : Latch,
    (∀ m, opc m = l.opcode →
      ∃ i, decodeWith opc l = .ok i ∧ mnemonicOf i = m ∧ instrLength i = 1 + operandCount (formatOf m)) ∧
    ((∀ m, opc m ≠ l.opcode) → decodeWith opc l = .error (.unrecognized l.opcode))) ∧
  (∀ (i : Instr) (s : State), i.wellFormed = true → mnemonicOf i ∉ [.call, .ret, .jeq, .jne, .jmp] →
    ∃ t, exec i s = .next t ∧ t.pc = s.pc + instrLength i)

/-- From R50's table of formats, over the latched bytes: which of them each instruction takes as its operands (the
others are fetched and ignored), and its length, under every injective opcode assignment. At which offset from the pc
each byte stands is said by InstructionBytesAtThePcAreExecuted. -/
def Obligations.FormatsFixOperandsAndLengths : Prop :=
  ∀ opc : OpcodeMap, Function.Injective opc → ∀ a b : Byte,
    decodeWith opc ⟨opc .hlt, a, b⟩ = .ok .hlt ∧
    decodeWith opc ⟨opc .ret, a, b⟩ = .ok .ret ∧
    decodeWith opc ⟨opc .prn, a, b⟩ = .ok (.prn a) ∧
    decodeWith opc ⟨opc .pra, a, b⟩ = .ok (.pra a) ∧
    decodeWith opc ⟨opc .inc, a, b⟩ = .ok (.inc a) ∧
    decodeWith opc ⟨opc .dec, a, b⟩ = .ok (.dec a) ∧
    decodeWith opc ⟨opc .push, a, b⟩ = .ok (.push a) ∧
    decodeWith opc ⟨opc .pop, a, b⟩ = .ok (.pop a) ∧
    decodeWith opc ⟨opc .call, a, b⟩ = .ok (.call a) ∧
    decodeWith opc ⟨opc .jeq, a, b⟩ = .ok (.jeq a) ∧
    decodeWith opc ⟨opc .jne, a, b⟩ = .ok (.jne a) ∧
    decodeWith opc ⟨opc .jmp, a, b⟩ = .ok (.jmp a) ∧
    decodeWith opc ⟨opc .mul, a, b⟩ = .ok (.mul a b) ∧
    decodeWith opc ⟨opc .add, a, b⟩ = .ok (.add a b) ∧
    decodeWith opc ⟨opc .cmp, a, b⟩ = .ok (.cmp a b) ∧
    decodeWith opc ⟨opc .ld, a, b⟩ = .ok (.ld a b) ∧
    decodeWith opc ⟨opc .ldi, a, b⟩ = .ok (.ldi a b) ∧
    decodeWith opc ⟨opc .st, a, b⟩ = .ok (.st a b) ∧
    (∀ i, mnemonicOf i ∈ [.hlt, .ret] → instrLength i = 1) ∧
    (∀ i, mnemonicOf i ∈ [.prn, .pra, .inc, .dec, .push, .pop, .call, .jeq, .jne, .jmp] → instrLength i = 2) ∧
    (∀ i, mnemonicOf i ∈ [.mul, .add, .cmp, .ld, .ldi, .st] → instrLength i = 3)

/-- R37, R50, R51: where an instruction's bytes stand at ascending addresses from the pc of a running core, the opcode
byte at the pc, the first operand at pc+1, the second at pc+2, the step executes that instruction, whatever the bytes
after it, under every injective opcode assignment. It is stated at a pc of at most 253, above which no fetch completes
(the spec's own decision D4, log entry 15). -/
def Obligations.InstructionBytesAtThePcAreExecuted : Prop :=
  ∀ opc : OpcodeMap, Function.Injective opc → ∀ (i : Instr) (s : State), s.status = .running → s.pc ≤ 253 →
    (∀ (k : Nat) (hk : k < (encodeWith opc i).length), memRead (s.pc + k) s = .ok (encodeWith opc i)[k]) →
    cycle opc s = exec i s

/-- R58: 238 of the 256 byte values are unrecognized, 0x00 and 0xA1 among them, whatever the operand bytes. It rests on
the general-knowledge opcode bytes (D1, log entry 1). -/
def Obligations.UnrecognizedOpcodeBytes : Prop :=
  ((List.range 256).filter fun n => lookupOpcode opcodeMap (BitVec.ofNat 8 n) == none).length = 238 ∧
    ∀ a b : Byte, decode ⟨0x00, a, b⟩ = .error (.unrecognized 0x00) ∧ decode ⟨0xA1, a, b⟩ = .error (.unrecognized 0xA1)

/-! ## The cycle -/

/-- A step runs the decoded instruction (R67): where the three bytes at the pc of a running core decode to `i`, the
step is `exec i`, with nothing added around it (each instruction updates the pc itself, R73). -/
def Obligations.StepRunsTheDecodedInstruction : Prop :=
  ∀ (s : State) (op a b : Byte) (i : Instr), s.status = .running → fetches s op a b →
    decode ⟨op, a, b⟩ = .ok i → step s = exec i s

/-- R67, the whole step, under every opcode assignment: a read of the fetch that raises a fault ends the step; an
opcode byte outside the assignment is reported and halts; the register operands are checked in order; else the
decoded instruction is executed. The precise register fault and its order are the spec's own decisions D5 and D21 (log
entries 16, 20), the unchanged pc at an unrecognized opcode its D7 (log entry 18), and a fault taken as a next state is
the model's reading (log entry 3). -/
def Obligations.CycleFetchesDecodesChecksExecutes : Prop :=
  ∀ (opc : OpcodeMap) (s : State), s.status = .running →
    (∀ r, (memRead s.pc s = .error r ∨
        (∃ op, memRead s.pc s = .ok op ∧
          (memRead (s.pc + 1) s = .error r ∨ ∃ a, memRead (s.pc + 1) s = .ok a ∧ memRead (s.pc + 2) s = .error r))) →
      cycle opc s = .next { s with status := .faulted r }) ∧
    (∀ op a b, fetches s op a b →
      ((∀ m, opc m ≠ op) →
        cycle opc s =
          .next { s with out := s.out ++ [.unrecognized op], status := .halted (.unrecognized op) }) ∧
      (∀ i, decodeWith opc ⟨op, a, b⟩ = .ok i →
        (∀ byte, i.regOperands.find? (fun x => decide (8 ≤ x.toNat)) = some byte →
          cycle opc s = .next { s with status := .faulted (.badRegister byte) }) ∧
        (i.regOperands.find? (fun x => decide (8 ≤ x.toNat)) = none → cycle opc s = exec i s)))

/-- R68 and R111: a fetch completes exactly at a pc of at most 253; above, the step faults, records the first
out-of-range address and changes nothing else. The spec's own decision D4. -/
def Obligations.FetchAtTheTopOfMemoryFaults : Prop :=
  ∀ s : State, s.status = .running →
    (s.pc ≤ 253 → ∃ op a b, fetches s op a b) ∧
    (254 ≤ s.pc →
      step s = .next { s with status := .faulted (.addressOutOfRange (if 255 < s.pc then s.pc else 256)) })

/-- R72, R109, R110 with the operand roles of R71: a register operand of 8 or more faults, `a` before `b`, for every
instruction that has one, a jump that would not be taken among them, and nothing but the status changes. The spec's own
decision D5. -/
def Obligations.BadRegisterFaultsArePrecise : Prop :=
  ∀ (s : State) (a b : Byte),
    (8 ≤ a.toNat →
      ∀ i ∈ [Instr.prn a, .pra a, .inc a, .dec a, .push a, .pop a, .call a, .jeq a, .jne a, .jmp a, .ldi a b,
          .mul a b, .add a b, .cmp a b, .ld a b],
        exec i s = .next { s with status := .faulted (.badRegister a) }) ∧
    (a.toNat < 8 → 8 ≤ b.toNat →
      ∀ i ∈ [Instr.mul a b, .add a b, .cmp a b, .ld a b],
        exec i s = .next { s with status := .faulted (.badRegister b) })

/-- R114: the first condition the step meets is the one reported: the fetch, then the opcode, then `a`, then `b`. The
order is the spec's own decision D21 (log entry 20); the fetch fault is its D4 (log entry 15), the pc that stays at an
unrecognized opcode its D7 (log entry 18, which this statement adopts), the precise register fault its D5 (log entry
16). -/
def Obligations.FirstConditionMetIsReported : Prop :=
  ∀ s : State, s.status = .running →
    (254 ≤ s.pc → ∃ addr, step s = .next { s with status := .faulted (.addressOutOfRange addr) }) ∧
    (∀ op a b, fetches s op a b →
      ((∀ m, opcodeMap m ≠ op) →
        step s = .next { s with out := s.out ++ [.unrecognized op], status := .halted (.unrecognized op) }) ∧
      (∀ m, opcodeMap m = op → formatOf m ∈ [.R, .RR, .RI] → 8 ≤ a.toNat →
        step s = .next { s with status := .faulted (.badRegister a) }) ∧
      (∀ m, opcodeMap m = op → formatOf m = .RR → a.toNat < 8 → 8 ≤ b.toNat →
        step s = .next { s with status := .faulted (.badRegister b) }))

/-- From R73's table of pc updates; every instruction executes when its register operands name registers. CALL's target
is read after its push, so it is the register's value in the next state: for R7, the decremented SP, by the spec's own
decision D10 (R97, log entry 19). -/
def Obligations.PcUpdateTable : Prop :=
  ∀ (s : State) (a b : Byte),
    (∃ t, exec .hlt s = .next t ∧ t.pc = s.pc + 1 ∧ t.status = .halted .hlt) ∧
    (∃ t, exec .ret s = .next t ∧ ∃ v, memRead (s.reg SP).toNat s = .ok v ∧ t.pc = v.toNat) ∧
    (∃ t, exec (.st a b) s = .next t ∧ t.pc = s.pc + 3) ∧
    (∀ ha : a.toNat < 8,
      (∀ i ∈ [Instr.prn a, .pra a, .inc a, .dec a, .push a, .pop a], ∃ t, exec i s = .next t ∧ t.pc = s.pc + 2) ∧
      (∃ t, exec (.ldi a b) s = .next t ∧ t.pc = s.pc + 3) ∧
      (∃ t, exec (.call a) s = .next t ∧ t.pc = (t.reg ⟨a.toNat, ha⟩).toNat) ∧
      (∃ t, exec (.jmp a) s = .next t ∧ t.pc = (s.reg ⟨a.toNat, ha⟩).toNat) ∧
      (∃ t, exec (.jeq a) s = .next t ∧
        t.pc = if s.flags.E then (s.reg ⟨a.toNat, ha⟩).toNat else s.pc + 2) ∧
      (∃ t, exec (.jne a) s = .next t ∧
        t.pc = if !s.flags.E then (s.reg ⟨a.toNat, ha⟩).toNat else s.pc + 2)) ∧
    (a.toNat < 8 → b.toNat < 8 →
      ∀ i ∈ [Instr.mul a b, .add a b, .cmp a b, .ld a b], ∃ t, exec i s = .next t ∧ t.pc = s.pc + 3)

/-- R79, R122: a core whose status is terminal keeps its whole state, however many steps are asked of it. That a step
that is not taken answers the same state is the model's choice (log entry 4). -/
def Obligations.StoppedCoreKeepsItsState : Prop :=
  ∀ s : State, s.status ≠ .running → ∀ k, Sys2Proof.core.run k s = .next s

/-- R78: a step of a running core leaves it running or ends the run by HLT, by an unrecognized opcode, by a fetch out of
range or by a bad register operand, and in no other way; a jump to its own address runs on for ever. The fault states
are the spec's own (C1, D4, D5). -/
def Obligations.OnlyTheNamedConditionsEndARun : Prop :=
  (∀ s t : State, s.status = .running → step s = .next t →
    t.status = .running ∨
    (t.status = .halted .hlt ∧ memRead s.pc s = .ok (opcodeMap .hlt)) ∨
    (∃ op, t.status = .halted (.unrecognized op) ∧ memRead s.pc s = .ok op ∧ ∀ m, opcodeMap m ≠ op) ∨
    (∃ addr, t.status = .faulted (.addressOutOfRange addr) ∧ 254 ≤ s.pc) ∨
    (∃ op a b i byte, t.status = .faulted (.badRegister byte) ∧ fetches s op a b ∧
      decode ⟨op, a, b⟩ = .ok i ∧ byte ∈ i.regOperands ∧ 8 ≤ byte.toNat)) ∧
  (∀ (s : State) (a b : Byte) (ha : a.toNat < 8), s.status = .running → fetches s (opcodeMap .jmp) a b →
    (s.reg ⟨a.toNat, ha⟩).toNat = s.pc → ∀ k, Sys2Proof.core.run k s = .next s)

/-- Every step of every state has a next state: the spec's faults are statuses of the core (R25, R108), and no
instruction is refused. That a fault is taken as a next state is the model's reading (log entry 3), and that a stopped
core, which takes no step (R79), answers the same state is the model's choice (log entry 4). -/
def Obligations.EveryStepAnswersANextState : Prop :=
  ∀ s : State, ∃ t, step s = .next t

/-- An instruction word placed by `withFetchWord` is the one the next step executes, in every state; in a running state
at a pc of at most 253 the placing changes memory alone, and there only the three bytes at the pc (log entry 9). -/
def Obligations.PlacedWordIsExecuted : Prop :=
  ∀ (s : State) (nbits w : Nat),
    (∀ i, decodeTableWord nbits w = some i → step (s.withFetchWord nbits w) = exec i (s.withFetchWord nbits w)) ∧
    (s.status = .running → s.pc ≤ 253 →
      s.withFetchWord nbits w = { s with mem := (s.withFetchWord nbits w).mem } ∧
      ∀ x, x < s.pc ∨ s.pc + 2 < x → memRead x (s.withFetchWord nbits w) = memRead x s)

/-! ## ALU instructions -/

/-- R82: every ALU result is the exact result modulo 256, SUB's among them (R86: no instruction reaches SUB). The
spec's own decision D2. -/
def Obligations.AluResultsWrapModulo256 : Prop :=
  ∀ x y : Byte,
    (alu .add x y).toNat = (x.toNat + y.toNat) % 256 ∧
    (alu .sub x y).toNat = (x.toNat + 256 - y.toNat) % 256 ∧
    (alu .mul x y).toNat = (x.toNat * y.toNat) % 256 ∧
    (alu .inc x y).toNat = (x.toNat + 1) % 256 ∧
    (alu .dec x y).toNat = (x.toNat + 255) % 256

/-- R87 and R88, pseudocode, flags and frame: MUL and ADD write the wrapped result to the first operand's register, and
nothing else but the pc changes. The wrap is the spec's own decision D2. -/
def Obligations.MulAndAddWriteTheWrappedResult : Prop :=
  ∀ (s : State) (a b : Byte) (ha : a.toNat < 8) (hb : b.toNat < 8),
    (∃ t, exec (.mul a b) s = .next t ∧ t.pc = s.pc + 3 ∧
      (t.reg ⟨a.toNat, ha⟩).toNat = ((s.reg ⟨a.toNat, ha⟩).toNat * (s.reg ⟨b.toNat, hb⟩).toNat) % 256 ∧
      onlyRegsChange [⟨a.toNat, ha⟩] s t) ∧
    (∃ t, exec (.add a b) s = .next t ∧ t.pc = s.pc + 3 ∧
      (t.reg ⟨a.toNat, ha⟩).toNat = ((s.reg ⟨a.toNat, ha⟩).toNat + (s.reg ⟨b.toNat, hb⟩).toNat) % 256 ∧
      onlyRegsChange [⟨a.toNat, ha⟩] s t)

/-- R89 and R90, pseudocode, flags and frame: INC and DEC. The wrap is the spec's own decision D2. -/
def Obligations.IncAndDecWriteTheWrappedResult : Prop :=
  ∀ (s : State) (a : Byte) (ha : a.toNat < 8),
    (∃ t, exec (.inc a) s = .next t ∧ t.pc = s.pc + 2 ∧
      (t.reg ⟨a.toNat, ha⟩).toNat = ((s.reg ⟨a.toNat, ha⟩).toNat + 1) % 256 ∧
      onlyRegsChange [⟨a.toNat, ha⟩] s t) ∧
    (∃ t, exec (.dec a) s = .next t ∧ t.pc = s.pc + 2 ∧
      (t.reg ⟨a.toNat, ha⟩).toNat = ((s.reg ⟨a.toNat, ha⟩).toNat + 255) % 256 ∧
      onlyRegsChange [⟨a.toNat, ha⟩] s t)

/-- R83 and R91, pseudocode and frame: CMP sets the flag of the unsigned comparison, clears none, and changes nothing
else but the pc. The unsigned reading is the spec's own decision D22. -/
def Obligations.CmpSetsTheOutcomeFlag : Prop :=
  ∀ (s : State) (a b : Byte) (ha : a.toNat < 8) (hb : b.toNat < 8),
    ∃ t, exec (.cmp a b) s = .next t ∧ t.pc = s.pc + 3 ∧
      t.flags.L = (s.flags.L || decide ((s.reg ⟨a.toNat, ha⟩).toNat < (s.reg ⟨b.toNat, hb⟩).toNat)) ∧
      t.flags.G = (s.flags.G || decide ((s.reg ⟨a.toNat, ha⟩).toNat > (s.reg ⟨b.toNat, hb⟩).toNat)) ∧
      t.flags.E = (s.flags.E || decide (s.reg ⟨a.toNat, ha⟩ = s.reg ⟨b.toNat, hb⟩)) ∧
      regsSameExcept [] s t ∧ memSame s t ∧ t.out = s.out ∧ t.status = s.status

/-- R84 over R83's outcomes: after any sequence of comparisons a flag is true exactly where it was true before or one of
them had that outcome. That the outcomes are those of the unsigned comparison is the spec's own decision D22 (R83, log
entry 14). -/
def Obligations.StickyFlagsRecordEveryOutcome : Prop :=
  ∀ (pairs : List (Byte × Byte)) (f : Flags),
    let g := pairs.foldl (fun f p => compareFlags p.1 p.2 f) f
    g.E = (f.E || pairs.any fun p => decide (p.1.toNat = p.2.toNat)) ∧
    g.L = (f.L || pairs.any fun p => decide (p.1.toNat < p.2.toNat)) ∧
    g.G = (f.G || pairs.any fun p => decide (p.2.toNat < p.1.toNat))

/-- R23: the flags are false after reset; JEQ and JNE read `FL.E`; only CMP writes the flags and it only ever writes
true; and no instruction reads `FL.L` or `FL.G`: whatever these two hold, an instruction does the same to everything but
them. -/
def Obligations.OnlyCmpWritesFlagsAndNothingReadsLessOrGreater : Prop :=
  State.reset.flags = ⟨false, false, false⟩ ∧
  (∀ (s : State) (a : Byte) (ha : a.toNat < 8),
    exec (.jeq a) s = .next { s with pc := if s.flags.E then (s.reg ⟨a.toNat, ha⟩).toNat else s.pc + 2 } ∧
    exec (.jne a) s = .next { s with pc := if s.flags.E then s.pc + 2 else (s.reg ⟨a.toNat, ha⟩).toNat }) ∧
  ∀ (i : Instr) (s t : State), exec i s = .next t →
    (mnemonicOf i ≠ .cmp → t.flags = s.flags) ∧
    (s.flags.E = true → t.flags.E = true) ∧ (s.flags.L = true → t.flags.L = true) ∧
    (s.flags.G = true → t.flags.G = true) ∧
    ∀ l g : Bool, ∃ t', exec i { s with flags := { s.flags with L := l, G := g } } = .next t' ∧
      t'.regs = t.regs ∧ t'.pc = t.pc ∧ t'.flags.E = t.flags.E ∧ t'.mem = t.mem ∧ t'.status = t.status ∧ t'.out = t.out

/-- R133 and the corner cases of R99 and R100: along every run of the core a flag that is true stays true, so once Equal
is true JEQ is always taken and JNE never. -/
def Obligations.NoRunClearsAFlag : Prop :=
  ∀ (k : Nat) (s t : State), Sys2Proof.core.run k s = .next t →
    (s.flags.L = true → t.flags.L = true) ∧ (s.flags.G = true → t.flags.G = true) ∧
    (s.flags.E = true → t.flags.E = true ∧ ∀ (a : Byte) (ha : a.toNat < 8),
      exec (.jne a) t = .next { t with pc := t.pc + 2 } ∧
      exec (.jeq a) t = .next { t with pc := (t.reg ⟨a.toNat, ha⟩).toNat })

/-! ## Data movement -/

/-- R53: LDI loads its second byte, ST stores its second byte at the address of its first, each unchanged; with the
frames of R92 and R96. ST's address is any byte, also one that would be no register index. -/
def Obligations.LdiAndStUseWholeOperandBytes : Prop :=
  (∀ (s : State) (a imm : Byte) (ha : a.toNat < 8),
    ∃ t, exec (.ldi a imm) s = .next t ∧ t.pc = s.pc + 3 ∧ t.reg ⟨a.toNat, ha⟩ = imm ∧
      onlyRegsChange [⟨a.toNat, ha⟩] s t) ∧
  (∀ (s : State) (addr imm : Byte),
    ∃ t, exec (.st addr imm) s = .next t ∧ t.pc = s.pc + 3 ∧ memRead addr.toNat t = .ok imm ∧
      onlyStoresAt addr.toNat [] s t)

/-- R93, pseudocode and frame: PUSH decrements SP, which wraps from 0x00 to 0xFF (D6), and stores at the new SP the
register as it stands after the decrement, so `PUSH R7` stores the decremented SP (D10). -/
def Obligations.PushStoresBelowTheStackPointer : Prop :=
  ∀ (s : State) (a : Byte) (ha : a.toNat < 8),
    ∃ t, exec (.push a) s = .next t ∧ t.pc = s.pc + 2 ∧
      (t.reg SP).toNat = ((s.reg SP).toNat + 255) % 256 ∧
      memRead (((s.reg SP).toNat + 255) % 256) t =
        .ok (if a = 7 then t.reg SP else s.reg ⟨a.toNat, ha⟩) ∧
      onlyStoresAt ((decSP s).reg SP).toNat [SP] s t ∧
      ((decSP s).reg SP).toNat = ((s.reg SP).toNat + 255) % 256

/-- R94, pseudocode and frame: POP loads the byte at SP and then increments SP, which wraps from 0xFF to 0x00 (D6);
`POP R7` increments the byte it loaded (D10). The popped cell is not cleared. -/
def Obligations.PopLoadsAtTheStackPointer : Prop :=
  ∀ (s : State) (a : Byte) (ha : a.toNat < 8),
    ∃ t v, exec (.pop a) s = .next t ∧ memRead (s.reg SP).toNat s = .ok v ∧ t.pc = s.pc + 2 ∧
      (a ≠ 7 → t.reg ⟨a.toNat, ha⟩ = v ∧ (t.reg SP).toNat = ((s.reg SP).toNat + 1) % 256) ∧
      (a = 7 → (t.reg SP).toNat = (v.toNat + 1) % 256) ∧
      onlyRegsChange [⟨a.toNat, ha⟩, SP] s t

/-- The round trip of R94 and S5: PUSH and then POP of one register restores every register. THE CLAUSE FOR R7 IS THE
MODEL'S CHOICE against R94's own sentence "for a = 7 the result is SP + 1" and S5's "For r = 7 the property fails": it
follows the pseudocode of R93 and R94 instead (log entry 8, DEDUCED, unsafe), under the order of effects of D10 (log
entry 19). That SP wraps on the way is D6 (log entry 17). -/
def Obligations.PushThenPopRestoresTheRegister : Prop :=
  ∀ (s : State) (a : Byte), a.toNat < 8 →
    ∃ t u, exec (.push a) s = .next t ∧ exec (.pop a) t = .next u ∧ (∀ r, u.reg r = s.reg r) ∧ u.pc = s.pc + 4

/-- R95, pseudocode and frame: LD reads the byte at the address its second register holds, before it writes the
first. -/
def Obligations.LdLoadsRegisterIndirect : Prop :=
  ∀ (s : State) (a b : Byte) (ha : a.toNat < 8) (hb : b.toNat < 8),
    ∃ t, exec (.ld a b) s = .next t ∧ t.pc = s.pc + 3 ∧
      .ok (t.reg ⟨a.toNat, ha⟩) = memRead (s.reg ⟨b.toNat, hb⟩).toNat s ∧
      onlyRegsChange [⟨a.toNat, ha⟩] s t

/-! ## Control transfer -/

/-- R97, pseudocode and frame: CALL decrements SP, stores there the address after itself and its operand, and jumps to
the register as it stands after the push, so `CALL R7` jumps to the decremented SP (D6, D10). It is stated at a pc of at
most 253, where alone an instruction executes (R68, R97's "always a u8"). -/
def Obligations.CallPushesTheReturnAddress : Prop :=
  ∀ (s : State) (a : Byte) (ha : a.toNat < 8), s.pc ≤ 253 →
    ∃ t v, exec (.call a) s = .next t ∧
      (t.reg SP).toNat = ((s.reg SP).toNat + 255) % 256 ∧
      memRead (((s.reg SP).toNat + 255) % 256) t = .ok v ∧ v.toNat = s.pc + 2 ∧
      t.pc = (if a = 7 then (t.reg SP).toNat else (s.reg ⟨a.toNat, ha⟩).toNat) ∧
      onlyStoresAt ((decSP s).reg SP).toNat [SP] s t ∧
      ((decSP s).reg SP).toNat = ((s.reg SP).toNat + 255) % 256

/-- R98, pseudocode and frame: RET jumps to the byte at SP and increments SP, which wraps (D6). -/
def Obligations.RetPopsTheProgramCounter : Prop :=
  ∀ s : State, ∃ t v, exec .ret s = .next t ∧ memRead (s.reg SP).toNat s = .ok v ∧ t.pc = v.toNat ∧
    (t.reg SP).toNat = ((s.reg SP).toNat + 1) % 256 ∧ onlyRegsChange [SP] s t

/-- R98's round trip: after a CALL, RET from any later state whose SP and byte at SP are as the CALL left them goes to
the address after the CALL and its operand, with SP as before the CALL. That SP wraps on the way is the spec's own
decision D6 (log entry 17). -/
def Obligations.RetReturnsPastItsCall : Prop :=
  ∀ (s t u : State) (a : Byte), a.toNat < 8 → s.pc ≤ 253 → exec (.call a) s = .next t →
    u.reg SP = t.reg SP → memRead (t.reg SP).toNat u = memRead (t.reg SP).toNat t →
    ∃ v, exec .ret u = .next v ∧ v.pc = s.pc + 2 ∧ v.reg SP = s.reg SP

/-- R99, R100, R101, pseudocode and frame: the jumps land exactly on the register's value or go on to the next
instruction, and change nothing but the pc. -/
def Obligations.JumpsChangeOnlyTheProgramCounter : Prop :=
  ∀ (s : State) (a : Byte) (ha : a.toNat < 8),
    (∃ t, exec (.jmp a) s = .next t ∧ t.pc = (s.reg ⟨a.toNat, ha⟩).toNat ∧ onlyRegsChange [] s t) ∧
    (∃ t, exec (.jeq a) s = .next t ∧
      t.pc = (if s.flags.E then (s.reg ⟨a.toNat, ha⟩).toNat else s.pc + 2) ∧ onlyRegsChange [] s t) ∧
    (∃ t, exec (.jne a) s = .next t ∧
      t.pc = (if s.flags.E then s.pc + 2 else (s.reg ⟨a.toNat, ha⟩).toNat) ∧ onlyRegsChange [] s t)

/-! ## Halt and output -/

/-- R74: HLT advances the pc by one, then stops; nothing else changes (R102). -/
def Obligations.HltAdvancesThenHalts : Prop :=
  ∀ s : State, exec .hlt s = .next { s with pc := s.pc + 1, status := .halted .hlt }

/-- R103 and R104, pseudocode and frame: PRN and PRA append one event with the register's value. -/
def Obligations.PrnAndPraEmitTheRegister : Prop :=
  ∀ (s : State) (a : Byte) (ha : a.toNat < 8),
    (∃ t, exec (.prn a) s = .next t ∧ t.pc = s.pc + 2 ∧ t.out = s.out ++ [.outDec (s.reg ⟨a.toNat, ha⟩)] ∧
      regsSameExcept [] s t ∧ memSame s t ∧ t.flags = s.flags ∧ t.status = s.status) ∧
    (∃ t, exec (.pra a) s = .next t ∧ t.pc = s.pc + 2 ∧ t.out = s.out ++ [.outChar (s.reg ⟨a.toNat, ha⟩)] ∧
      regsSameExcept [] s t ∧ memSame s t ∧ t.flags = s.flags ∧ t.status = s.status)

/-- The source's example S2 for every register and value (R15, R92, R103): LDI and then PRN of one register emits the
immediate. -/
def Obligations.LdiThenPrnEmitsTheImmediate : Prop :=
  ∀ (s : State) (a imm : Byte), a.toNat < 8 →
    ∃ t u, exec (.ldi a imm) s = .next t ∧ exec (.prn a) t = .next u ∧ u.out = s.out ++ [.outDec imm] ∧
      u.pc = s.pc + 5

/-- R26, R119: the output stream only grows, by at most one event a step, and only PRN, PRA and an unrecognized opcode
add to it. The stream of events is the spec's own decision D8. -/
def Obligations.OutputStreamOnlyGrows : Prop :=
  ∀ s t : State, step s = .next t →
    t.out = s.out ∨
    ∃ op, memRead s.pc s = .ok op ∧
      ((op = opcodeMap .prn ∧ ∃ r, t.out = s.out ++ [.outDec (s.reg r)]) ∨
       (op = opcodeMap .pra ∧ ∃ r, t.out = s.out ++ [.outChar (s.reg r)]) ∨
       ((∀ m, opcodeMap m ≠ op) ∧ t.out = s.out ++ [.unrecognized op]))

/-- R105: in the display of every output stream the number a PRN printed is a line of its own, its decimal numeral and
nothing else, whatever was printed before it and whatever follows; no line is left begun after it. What ends a line, and
whether characters and reports end theirs, stays the host's (D8, log entry 11). -/
def Obligations.EveryNumberStandsOnItsOwnLine : Prop :=
  ∀ (before later : List OutEvent) (v : Byte),
    displayOf (before ++ [.outDec v]) = ⟨(displayOf before).endLine.lines ++ [toString v.toNat], ""⟩ ∧
    ∃ more, (displayOf (before ++ .outDec v :: later)).lines =
      (displayOf before).endLine.lines ++ [toString v.toNat] ++ more

/-! ## Reset, boot and the whole machine -/

/-- R30, R124: the state after reset. R0..R6 are 0x00 by the spec's own decision D3 (log entry 2). -/
def Obligations.ResetLeavesTheSpecifiedState : Prop :=
  State.reset.pc = 0 ∧ State.reset.reg 7 = 0xF4 ∧ (∀ r : RegIndex, r ≠ 7 → State.reset.reg r = 0x00) ∧
    State.reset.flags = ⟨false, false, false⟩ ∧ (∀ x, x < 256 → memRead x State.reset = .ok 0x00) ∧
    State.reset.status = .running ∧ State.reset.out = []

/-- R127: the load of an image writes its bytes from address 0 in order, leaves 0x00 in the cells it does not cover, and
takes no step. -/
def Obligations.ImageLoadFillsMemoryFromZero : Prop :=
  ∀ img : List Byte, img.length ≤ 256 → ∃ s, boot img = some s ∧
    (∀ x, x < 256 → memRead x s = .ok (img.getD x 0x00)) ∧
    s.regs = State.reset.regs ∧ s.pc = State.reset.pc ∧ s.flags = State.reset.flags ∧
    s.status = State.reset.status ∧ s.out = State.reset.out

/-- R125, R126, R128: a run of a loaded image begins with the instruction at address 0; an image of no bytes halts at
once on the unrecognized opcode 0x00, the pc staying at it by the spec's own decision D7 (log entry 18); an image of
more than 256 bytes is not loaded (the spec's own D19, log entry 10). -/
def Obligations.RunsStartAtAddressZero : Prop :=
  (∀ (img : List Byte) (s : State) (i : Instr), boot img = some s →
    decode ⟨img.getD 0 0, img.getD 1 0, img.getD 2 0⟩ = .ok i → step s = exec i s) ∧
  (∃ s, boot [] = some s ∧
    step s = .next { s with out := [.unrecognized 0x00], status := .halted (.unrecognized 0x00) }) ∧
  (∀ img : List Byte, 256 < img.length → boot img = none)

/-- The invariant holds after reset, and after the load of an image: the base case of EveryStepKeepsTheInvariant. The
canonical form of the memory in it is the model's own choice (log entry 6). -/
def Obligations.InvariantHoldsAfterResetAndLoad : Prop :=
  Inv State.reset ∧ ∀ img s, boot img = some s → Inv s

/-- Every step keeps the invariant, from every state that meets it: memory stays in canonical form, the pc stays at most
256 (R21), and a terminal status is justified by the state: a halt stands one past a HLT, an unrecognized opcode stands
at the pc and was reported, an out-of-range fetch recorded 256, a bad register byte is an operand byte of 8 or more. The
canonical form is the model's own choice (log entry 6); the pc at an unrecognized opcode rests on the spec's own decision
D7 (log entry 18), the fetch fault on D4 (log entry 15), the register fault on D5 (log entry 16). -/
def Obligations.EveryStepKeepsTheInvariant : Prop :=
  ∀ s t : State, Inv s → step s = .next t → Inv t

/-- R34: only ST, PUSH and CALL write memory, one byte each: ST at its first operand byte, PUSH and CALL at the
decremented SP. Every other instruction leaves every byte. -/
def Obligations.OnlyStPushAndCallWriteMemory : Prop :=
  ∀ (i : Instr) (s t : State), exec i s = .next t →
    (mnemonicOf i ∉ [.st, .push, .call] → memSame s t) ∧
    (∀ addr imm, i = .st addr imm → memSameExcept addr.toNat s t) ∧
    (∀ a, i = .push a ∨ i = .call a → memSameExcept ((decSP s).reg SP).toNat s t)

/-- R18, R20: a register changes only where R18's table says the instruction writes it; and an instruction that does not
name a register, and does not use it as the stack pointer, neither reads nor writes it: with another value there, it
does the same to everything else. IM and IS are thus inert. -/
def Obligations.RegistersNotNamedAreNeitherReadNorWritten : Prop :=
  ∀ (i : Instr) (s t : State) (r : RegIndex), exec i s = .next t →
    (t.reg r ≠ s.reg r →
      (mnemonicOf i ∈ [.ldi, .ld, .pop, .add, .mul, .inc, .dec] ∧ ∃ a ∈ (operandBytes i).head?, a.toNat = r.val) ∨
      (mnemonicOf i ∈ [.push, .pop, .call, .ret] ∧ r = SP)) ∧
    ((∀ b ∈ i.regOperands, b.toNat ≠ r.val) → ¬(r = SP ∧ mnemonicOf i ∈ [.push, .pop, .call, .ret]) →
      ∀ v, exec i (s.setReg r v) = .next (t.setReg r v))

/-- R35: no data access is out of range: an instruction that executes never raises AddressOutOfRange, whatever the
registers hold. -/
def Obligations.DataAccessesAreNeverOutOfRange : Prop :=
  ∀ (i : Instr) (s t : State), s.status = .running → exec i s = .next t →
    ∀ addr, t.status ≠ .faulted (.addressOutOfRange addr)

/-- R77: a write by the execute part does not change the bytes the step latched, so the step is the instruction of the
bytes before the write, a ST over its own bytes among them; and every later fetch, while nothing writes the cell again,
latches the written byte. -/
def Obligations.WritesReachLaterFetchesOnly : Prop :=
  (∀ (s t : State) (op a b : Byte) (i : Instr), s.status = .running → fetches s op a b →
    decode ⟨op, a, b⟩ = .ok i → step s = .next t →
    exec i s = .next t ∧
    ∀ (x : Nat) (u : State) (l : Latch), memRead x u = memRead x t → fetch u = .ok l →
      (u.pc = x → memRead x t = .ok l.opcode) ∧ (u.pc + 1 = x → memRead x t = .ok l.a) ∧
      (u.pc + 2 = x → memRead x t = .ok l.b)) ∧
  (∀ (s : State) (a b : Byte), s.status = .running → fetches s (opcodeMap .st) a b →
    ∃ t, step s = .next t ∧ t.pc = s.pc + 3 ∧ memRead a.toNat t = .ok b ∧ memSameExcept a.toNat s t)

/-- R43: after the load of an image and any sequence of writes, every cell reads as the last byte written to it, else as
the image's byte, else as 0x00. -/
def Obligations.ReadsReturnTheMostRecentWrite : Prop :=
  ∀ (img : List Byte) (s : State) (ws : List (Byte × Byte)), boot img = some s →
    ∃ t, ws.foldlM (fun s w => memWrite w.1.toNat w.2 s) s = .ok t ∧
      ∀ x, x < 256 → memRead x t =
        .ok (match ws.reverse.find? fun w => decide (w.1.toNat = x) with
          | some w => w.2
          | none => img.getD x 0x00)

/-- The model's memory is plain data in one form (log entry 6): two canonical memories that hold the same 256 bytes
(R27, R32) are the same list. -/
def Obligations.CanonicalMemoryIsItsContents : Prop :=
  ∀ m n : Memory, m.wf → n.wf → (∀ x, x < 256 → m.get x = n.get x) → m = n
end

