-- ==== Sys2Proof/Laws/Decode.lean ====
section
/-! SUPPORT. What the opcode lookup can answer, and the shape of an encoding. -/

namespace Sys2Proof

theorem mem_allMnemonics (m : Mnemonic) : m ∈ allMnemonics := by cases m <;> decide

/-- A lookup that finds a mnemonic finds one with exactly that opcode byte (R54). -/
theorem lookupOpcode_some {opc : OpcodeMap} {op : Byte} {m : Mnemonic} (h : lookupOpcode opc op = some m) :
    opc m = op := by
  simpa using List.find?_some h

/-- A lookup that finds nothing: no mnemonic has that opcode byte (R58). -/
theorem lookupOpcode_none {opc : OpcodeMap} {op : Byte} : lookupOpcode opc op = none ↔ ∀ m, opc m ≠ op := by
  simp [lookupOpcode, List.find?_eq_none, mem_allMnemonics]

/-- Under an injective assignment a mnemonic's own byte is looked up as that mnemonic. -/
theorem lookupOpcode_self {opc : OpcodeMap} (hinj : Function.Injective opc) (m : Mnemonic) :
    lookupOpcode opc (opc m) = some m := by
  cases h : lookupOpcode opc (opc m) with
  | none => exact absurd rfl (lookupOpcode_none.1 h m)
  | some k => rw [hinj (lookupOpcode_some h)]

theorem decodeWith_some {opc : OpcodeMap} {l : Latch} {m : Mnemonic} (h : lookupOpcode opc l.opcode = some m) :
    decodeWith opc l = .ok (buildInstr m l.a l.b) := by simp [decodeWith, h]

theorem decodeWith_none {opc : OpcodeMap} {l : Latch} (h : lookupOpcode opc l.opcode = none) :
    decodeWith opc l = .error (.unrecognized l.opcode) := by simp [decodeWith, h]

/-- Everything the decoder can answer. -/
theorem decodeWith_cases (opc : OpcodeMap) (l : Latch) :
    (∃ m, opc m = l.opcode ∧ decodeWith opc l = .ok (buildInstr m l.a l.b)) ∨
      ((∀ m, opc m ≠ l.opcode) ∧ decodeWith opc l = .error (.unrecognized l.opcode)) := by
  cases h : lookupOpcode opc l.opcode with
  | some m => exact .inl ⟨m, lookupOpcode_some h, decodeWith_some h⟩
  | none => exact .inr ⟨lookupOpcode_none.1 h, decodeWith_none h⟩

@[simp] theorem mnemonicOf_buildInstr (m : Mnemonic) (a b : Byte) : mnemonicOf (buildInstr m a b) = m := by
  cases m <;> rfl

/-- The default opcode bytes are distinct (R55). -/
theorem opcodeMap_injective : Function.Injective opcodeMap := by
  intro m n; cases m <;> cases n <;> decide

end Sys2Proof
end

