-- ==== Sys2Proof/Laws/Memory.lean ====
section
/-! SUPPORT. The laws of the memory: a read after a write, and every operation keeps the canonical form. -/

namespace Sys2Proof.Machine

@[simp] theorem get_nil (x : Nat) : Memory.get [] x = Memory.unlisted := rfl

theorem get_cons (c : Host.Cell) (m : Memory) (x : Nat) :
    Memory.get (c :: m) x = if c.1 = x then c.2 else Memory.get m x := rfl

/-- A cell that is not listed reads as the unlisted value. -/
theorem get_not_listed (m : Memory) (x : Nat) (h : ∀ c ∈ m, c.1 ≠ x) : m.get x = Memory.unlisted := by
  induction m with
  | nil => rfl
  | cons c m ih =>
    rw [get_cons, if_neg (h c (by simp)), ih fun d hd => h d (by simp [hd])]

theorem get_filter_ne (m : Memory) {a x : Nat} (h : x ≠ a) :
    Memory.get (m.filter fun c => c.1 != a) x = m.get x := by
  induction m with
  | nil => rfl
  | cons c m ih =>
    by_cases hc : c.1 = a
    · rw [List.filter_cons_of_neg (by simp [hc]), ih, get_cons, if_neg (by omega)]
    · rw [List.filter_cons_of_pos (by simpa using hc), get_cons, get_cons, ih]

theorem get_insertCell_self (m : Memory) (a : Nat) (v : Byte) (h : ∀ c ∈ m, c.1 ≠ a) :
    (m.insertCell a v).get a = v := by
  induction m with
  | nil => simp [Memory.insertCell, get_cons]
  | cons c m ih =>
    unfold Memory.insertCell
    split
    · simp [get_cons]
    · rw [get_cons, if_neg (h c (by simp)), ih fun d hd => h d (by simp [hd])]

theorem get_insertCell_ne (m : Memory) {a x : Nat} (v : Byte) (h : x ≠ a) :
    (m.insertCell a v).get x = m.get x := by
  induction m with
  | nil => simp [Memory.insertCell, get_cons, Ne.symm h]
  | cons c m ih =>
    unfold Memory.insertCell
    split
    · rw [get_cons, if_neg (Ne.symm h)]
    · rw [get_cons, ih, get_cons]

/-- A cell reads as what was last written to it, whatever form the memory has. -/
@[simp] theorem get_set_self (m : Memory) (a : Nat) (v : Byte) : (m.set a v).get a = v := by
  have hne : ∀ c ∈ (m.filter fun c => c.1 != a), c.1 ≠ a := by simp
  unfold Memory.set
  split
  · rw [get_not_listed _ _ hne, ‹v = _›]
  · exact get_insertCell_self _ _ _ hne

/-- A write leaves every other cell alone. -/
theorem get_set_ne (m : Memory) {a x : Nat} (v : Byte) (h : x ≠ a) : (m.set a v).get x = m.get x := by
  unfold Memory.set
  split
  · exact get_filter_ne m h
  · rw [get_insertCell_ne _ _ h, get_filter_ne m h]

theorem get_set (m : Memory) (a x : Nat) (v : Byte) : (m.set a v).get x = if x = a then v else m.get x := by
  split
  · subst x; exact get_set_self m a v
  · exact get_set_ne m v ‹_›

theorem mem_insertCell (m : Memory) (a : Nat) (v : Byte) (c : Host.Cell) :
    c ∈ m.insertCell a v ↔ c = (a, v) ∨ c ∈ m := by
  induction m with
  | nil => simp [Memory.insertCell]
  | cons d m ih =>
    unfold Memory.insertCell
    split
    · simp
    · simp only [List.mem_cons, ih]; tauto

theorem pairwise_insertCell (m : Memory) (a : Nat) (v : Byte) (h : m.Pairwise fun c d => c.1 < d.1)
    (hne : ∀ c ∈ m, c.1 ≠ a) : (m.insertCell a v).Pairwise fun c d => c.1 < d.1 := by
  induction m with
  | nil => simp [Memory.insertCell]
  | cons c m ih =>
    obtain ⟨hc, hm⟩ := List.pairwise_cons.1 h
    have hca := hne c (by simp)
    unfold Memory.insertCell
    split
    · refine List.pairwise_cons.2 ⟨fun d hd => ?_, h⟩
      rcases List.mem_cons.1 hd with rfl | hd
      · assumption
      · exact Nat.lt_trans ‹a < c.1› (hc d hd)
    · refine List.pairwise_cons.2 ⟨fun d hd => ?_, ih hm fun d hd => hne d (by simp [hd])⟩
      rcases (mem_insertCell m a v d).1 hd with rfl | hd
      · show c.1 < a; omega
      · exact hc d hd

/-- A write inside the 256 cells keeps the canonical form. -/
theorem set_wf (m : Memory) (a : Nat) (v : Byte) (h : m.wf) (ha : a < Config.memSize) : (m.set a v).wf := by
  obtain ⟨hsorted, hcells⟩ := h
  have hs := hsorted.filter fun c => c.1 != a
  unfold Memory.set
  split
  · exact ⟨hs, fun c hc => hcells c (List.mem_filter.1 hc).1⟩
  · refine ⟨pairwise_insertCell _ a v hs (by simp), fun c hc => ?_⟩
    rcases (mem_insertCell _ a v c).1 hc with rfl | hc
    · exact ⟨ha, ‹_›⟩
    · exact hcells c (List.mem_filter.1 hc).1

@[simp] theorem nil_wf : Memory.wf [] := by simp [Memory.wf]

/-- In canonical form nothing is listed outside the 256 cells. -/
theorem get_outside (m : Memory) (h : m.wf) {x : Nat} (hx : Config.memSize ≤ x) : m.get x = Memory.unlisted :=
  get_not_listed m x fun c hc => by have := (h.2 c hc).1; omega

/-- Stored bytes inside the 256 cells keep the canonical form. -/
theorem storeBytes_wf (vs : List Byte) (base : Nat) (m : Memory) (h : m.wf)
    (hb : base + vs.length ≤ Config.memSize) : (storeBytes base vs m).wf := by
  induction vs generalizing base m with
  | nil => exact h
  | cons v vs ih =>
    simp only [List.length_cons] at hb
    exact ih (base + 1) _ (set_wf m base v h (by omega)) (by omega)

theorem get_storeBytes_below (vs : List Byte) (base : Nat) (m : Memory) {x : Nat} (h : x < base) :
    (storeBytes base vs m).get x = m.get x := by
  induction vs generalizing base m with
  | nil => rfl
  | cons v vs ih => rw [storeBytes, ih (base + 1) _ (by omega), get_set_ne _ _ (by omega)]

theorem get_storeBytes_head (v : Byte) (vs : List Byte) (base : Nat) (m : Memory) :
    (storeBytes base (v :: vs) m).get base = v := by
  rw [storeBytes, get_storeBytes_below _ _ _ (by omega), get_set_self]

/-- Every cell after some bytes are stored: theirs inside the stored range, as before outside. -/
theorem get_storeBytes (vs : List Byte) (base : Nat) (m : Memory) (x : Nat) :
    (storeBytes base vs m).get x =
      if base ≤ x ∧ x < base + vs.length then vs.getD (x - base) 0 else m.get x := by
  induction vs generalizing base m with
  | nil => simp [storeBytes]
  | cons v vs ih =>
    rw [storeBytes, ih]
    by_cases h0 : x = base
    · subst h0; simp
    · rw [get_set_ne _ _ h0]
      by_cases h1 : base + 1 ≤ x ∧ x < base + 1 + vs.length
      · obtain ⟨k, rfl⟩ : ∃ k, x = base + 1 + k := ⟨x - (base + 1), by omega⟩
        rw [if_pos h1, if_pos (by simp; omega)]
        simp [show base + 1 + k - base = k + 1 by omega]
      · rw [if_neg h1, if_neg (by simp; omega)]

end Sys2Proof.Machine
end

