-- ==== Sys2Proof/Laws/State.lean ====
section
/-! SUPPORT. One lemma for each field of State under each named update, true by rfl, and the laws of the register
file. -/

namespace Sys2Proof.Machine

@[simp] theorem setReg_pc (s : State) (r : RegIndex) (v : Byte) : (s.setReg r v).pc = s.pc := rfl
@[simp] theorem setReg_flags (s : State) (r : RegIndex) (v : Byte) : (s.setReg r v).flags = s.flags := rfl
@[simp] theorem setReg_mem (s : State) (r : RegIndex) (v : Byte) : (s.setReg r v).mem = s.mem := rfl
@[simp] theorem setReg_status (s : State) (r : RegIndex) (v : Byte) : (s.setReg r v).status = s.status := rfl
@[simp] theorem setReg_out (s : State) (r : RegIndex) (v : Byte) : (s.setReg r v).out = s.out := rfl

@[simp] theorem advance_regs (s : State) (n : Nat) : (advance n s).regs = s.regs := rfl
@[simp] theorem advance_pc (s : State) (n : Nat) : (advance n s).pc = s.pc + n := rfl
@[simp] theorem advance_flags (s : State) (n : Nat) : (advance n s).flags = s.flags := rfl
@[simp] theorem advance_mem (s : State) (n : Nat) : (advance n s).mem = s.mem := rfl
@[simp] theorem advance_status (s : State) (n : Nat) : (advance n s).status = s.status := rfl
@[simp] theorem advance_out (s : State) (n : Nat) : (advance n s).out = s.out := rfl
@[simp] theorem advance_reg (s : State) (n : Nat) (q : RegIndex) : (advance n s).reg q = s.reg q := rfl

@[simp] theorem jumpTo_regs (s : State) (v : Byte) : (jumpTo v s).regs = s.regs := rfl
@[simp] theorem jumpTo_pc (s : State) (v : Byte) : (jumpTo v s).pc = v.toNat := rfl
@[simp] theorem jumpTo_flags (s : State) (v : Byte) : (jumpTo v s).flags = s.flags := rfl
@[simp] theorem jumpTo_mem (s : State) (v : Byte) : (jumpTo v s).mem = s.mem := rfl
@[simp] theorem jumpTo_status (s : State) (v : Byte) : (jumpTo v s).status = s.status := rfl
@[simp] theorem jumpTo_out (s : State) (v : Byte) : (jumpTo v s).out = s.out := rfl
@[simp] theorem jumpTo_reg (s : State) (v : Byte) (q : RegIndex) : (jumpTo v s).reg q = s.reg q := rfl

@[simp] theorem decSP_pc (s : State) : (decSP s).pc = s.pc := rfl
@[simp] theorem decSP_flags (s : State) : (decSP s).flags = s.flags := rfl
@[simp] theorem decSP_mem (s : State) : (decSP s).mem = s.mem := rfl
@[simp] theorem decSP_status (s : State) : (decSP s).status = s.status := rfl
@[simp] theorem decSP_out (s : State) : (decSP s).out = s.out := rfl

@[simp] theorem incSP_pc (s : State) : (incSP s).pc = s.pc := rfl
@[simp] theorem incSP_flags (s : State) : (incSP s).flags = s.flags := rfl
@[simp] theorem incSP_mem (s : State) : (incSP s).mem = s.mem := rfl
@[simp] theorem incSP_status (s : State) : (incSP s).status = s.status := rfl
@[simp] theorem incSP_out (s : State) : (incSP s).out = s.out := rfl

@[simp] theorem emit_regs (s : State) (ev : OutEvent) : (emit ev s).regs = s.regs := rfl
@[simp] theorem emit_pc (s : State) (ev : OutEvent) : (emit ev s).pc = s.pc := rfl
@[simp] theorem emit_flags (s : State) (ev : OutEvent) : (emit ev s).flags = s.flags := rfl
@[simp] theorem emit_mem (s : State) (ev : OutEvent) : (emit ev s).mem = s.mem := rfl
@[simp] theorem emit_status (s : State) (ev : OutEvent) : (emit ev s).status = s.status := rfl
@[simp] theorem emit_out (s : State) (ev : OutEvent) : (emit ev s).out = s.out ++ [ev] := rfl
@[simp] theorem emit_reg (s : State) (ev : OutEvent) (q : RegIndex) : (emit ev s).reg q = s.reg q := rfl

@[simp] theorem halt_regs (s : State) (why : HaltReason) : (halt why s).regs = s.regs := rfl
@[simp] theorem halt_pc (s : State) (why : HaltReason) : (halt why s).pc = s.pc := rfl
@[simp] theorem halt_flags (s : State) (why : HaltReason) : (halt why s).flags = s.flags := rfl
@[simp] theorem halt_mem (s : State) (why : HaltReason) : (halt why s).mem = s.mem := rfl
@[simp] theorem halt_status (s : State) (why : HaltReason) : (halt why s).status = .halted why := rfl
@[simp] theorem halt_out (s : State) (why : HaltReason) : (halt why s).out = s.out := rfl
@[simp] theorem halt_reg (s : State) (why : HaltReason) (q : RegIndex) : (halt why s).reg q = s.reg q := rfl

@[simp] theorem takeFault_regs (s : State) (why : Fault) : (takeFault why s).regs = s.regs := rfl
@[simp] theorem takeFault_pc (s : State) (why : Fault) : (takeFault why s).pc = s.pc := rfl
@[simp] theorem takeFault_flags (s : State) (why : Fault) : (takeFault why s).flags = s.flags := rfl
@[simp] theorem takeFault_mem (s : State) (why : Fault) : (takeFault why s).mem = s.mem := rfl
@[simp] theorem takeFault_status (s : State) (why : Fault) : (takeFault why s).status = .faulted why := rfl
@[simp] theorem takeFault_out (s : State) (why : Fault) : (takeFault why s).out = s.out := rfl
@[simp] theorem takeFault_reg (s : State) (why : Fault) (q : RegIndex) : (takeFault why s).reg q = s.reg q := rfl

@[simp] theorem reportUnrecognized_regs (s : State) (op : Byte) : (reportUnrecognized op s).regs = s.regs := rfl
@[simp] theorem reportUnrecognized_pc (s : State) (op : Byte) : (reportUnrecognized op s).pc = s.pc := rfl
@[simp] theorem reportUnrecognized_flags (s : State) (op : Byte) : (reportUnrecognized op s).flags = s.flags := rfl
@[simp] theorem reportUnrecognized_mem (s : State) (op : Byte) : (reportUnrecognized op s).mem = s.mem := rfl
@[simp] theorem reportUnrecognized_status (s : State) (op : Byte) : (reportUnrecognized op s).status = .halted (.unrecognized op) := rfl
@[simp] theorem reportUnrecognized_out (s : State) (op : Byte) : (reportUnrecognized op s).out = s.out ++ [.unrecognized op] := rfl
@[simp] theorem reportUnrecognized_reg (s : State) (op : Byte) (q : RegIndex) : (reportUnrecognized op s).reg q = s.reg q := rfl

@[simp] theorem setFlags_regs (s : State) (f : Flags) : (s.setFlags f).regs = s.regs := rfl
@[simp] theorem setFlags_pc (s : State) (f : Flags) : (s.setFlags f).pc = s.pc := rfl
@[simp] theorem setFlags_flags (s : State) (f : Flags) : (s.setFlags f).flags = f := rfl
@[simp] theorem setFlags_mem (s : State) (f : Flags) : (s.setFlags f).mem = s.mem := rfl
@[simp] theorem setFlags_status (s : State) (f : Flags) : (s.setFlags f).status = s.status := rfl
@[simp] theorem setFlags_out (s : State) (f : Flags) : (s.setFlags f).out = s.out := rfl
@[simp] theorem setFlags_reg (s : State) (f : Flags) (q : RegIndex) : (s.setFlags f).reg q = s.reg q := rfl

@[simp] theorem setMem_regs (s : State) (m : Memory) : (s.setMem m).regs = s.regs := rfl
@[simp] theorem setMem_pc (s : State) (m : Memory) : (s.setMem m).pc = s.pc := rfl
@[simp] theorem setMem_flags (s : State) (m : Memory) : (s.setMem m).flags = s.flags := rfl
@[simp] theorem setMem_mem (s : State) (m : Memory) : (s.setMem m).mem = m := rfl
@[simp] theorem setMem_status (s : State) (m : Memory) : (s.setMem m).status = s.status := rfl
@[simp] theorem setMem_out (s : State) (m : Memory) : (s.setMem m).out = s.out := rfl
@[simp] theorem setMem_reg (s : State) (m : Memory) (q : RegIndex) : (s.setMem m).reg q = s.reg q := rfl

/-! ## The register file -/

/-- A register read after a register write. -/
theorem setReg_reg (s : State) (r q : RegIndex) (v : Byte) :
    (s.setReg r v).reg q = if r = q then v else s.reg q := by
  simp only [State.reg, State.setReg, Vector.getElem_set, Fin.ext_iff]

@[simp] theorem setReg_reg_self (s : State) (r : RegIndex) (v : Byte) : (s.setReg r v).reg r = v := by
  simp [setReg_reg]

theorem setReg_reg_ne (s : State) {r q : RegIndex} (v : Byte) (h : q ≠ r) : (s.setReg r v).reg q = s.reg q := by
  simp [setReg_reg, Ne.symm h]

@[simp] theorem decSP_reg_SP (s : State) : (decSP s).reg SP = alu .dec (s.reg SP) 0 := by simp [decSP]

@[simp] theorem incSP_reg_SP (s : State) : (incSP s).reg SP = alu .inc (s.reg SP) 0 := by simp [incSP]

theorem decSP_reg_ne (s : State) {q : RegIndex} (h : q ≠ SP) : (decSP s).reg q = s.reg q := setReg_reg_ne s _ h

theorem incSP_reg_ne (s : State) {q : RegIndex} (h : q ≠ SP) : (incSP s).reg q = s.reg q := setReg_reg_ne s _ h

/-- Two states with the same registers read the same in every register, and conversely. -/
theorem regs_ext (s t : State) (h : ∀ r, t.reg r = s.reg r) : t.regs = s.regs :=
  Vector.ext fun i hi => h ⟨i, hi⟩

end Sys2Proof.Machine
end

