-- ==== Sys2Proof/Laws/Ops.lean ====
section
/-! SUPPORT. One lemma for each shared operation that says everything it can do; later proofs cite these and do not
unfold the operation. -/

namespace Sys2Proof.Machine

/-! ## Fault-raising computations -/

@[simp] theorem ok_bind {α β : Type} (x : α) (f : α → Except Fault β) : (Except.ok x >>= f) = f x := rfl

@[simp] theorem error_bind {α β : Type} (r : Fault) (f : α → Except Fault β) : (Except.error r >>= f) = .error r := rfl

@[simp] theorem pure_ok {α : Type} (x : α) : (pure x : Except Fault α) = .ok x := rfl

@[simp] theorem perform_ok (s t : State) : perform s (.ok t) = .next t := rfl

@[simp] theorem perform_error (s : State) (r : Fault) : perform s (.error r) = .next (takeFault r s) := rfl

/-- Everything `perform` can answer: a next state, the body's or a taken fault. -/
theorem perform_next (s t : State) (body : Except Fault State) (h : perform s body = .next t) :
    body = .ok t ∨ ∃ r, body = .error r ∧ t = takeFault r s := by
  cases body with
  | ok u => left; cases h; rfl
  | error r => right; exact ⟨r, rfl, by cases h; rfl⟩

/-! ## Register operands -/

theorem regIndex_ok (b : Byte) (h : b.toNat < 8) : regIndex b = .ok ⟨b.toNat, h⟩ := by simp [regIndex, h]

theorem regIndex_bad (b : Byte) (h : 8 ≤ b.toNat) : regIndex b = .error (.badRegister b) := by
  simp [regIndex, Nat.not_lt.2 h]

/-- Everything `regIndex` can answer. -/
theorem regIndex_cases (b : Byte) :
    (∃ h : b.toNat < 8, regIndex b = .ok ⟨b.toNat, h⟩) ∨ (8 ≤ b.toNat ∧ regIndex b = .error (.badRegister b)) := by
  by_cases h : b.toNat < 8
  · exact .inl ⟨h, regIndex_ok b h⟩
  · exact .inr ⟨by omega, regIndex_bad b (by omega)⟩

/-! ## Memory accesses -/

theorem memRead_ok (s : State) {x : Nat} (h : x < 256) : memRead x s = .ok (s.mem.get x) := if_pos h

theorem memRead_bad (s : State) {x : Nat} (h : 256 ≤ x) : memRead x s = .error (.addressOutOfRange x) :=
  if_neg (Nat.not_lt.2 h)

theorem memWrite_ok (s : State) {x : Nat} (v : Byte) (h : x < 256) :
    memWrite x v s = .ok (s.setMem (s.mem.set x v)) := if_pos h

theorem memWrite_bad (s : State) {x : Nat} (v : Byte) (h : 256 ≤ x) :
    memWrite x v s = .error (.addressOutOfRange x) := if_neg (Nat.not_lt.2 h)

/-- A data read never faults: its address is a byte (R35). -/
@[simp] theorem memRead_byte (s : State) (a : Byte) : memRead a.toNat s = .ok (s.mem.get a.toNat) :=
  memRead_ok s a.isLt

/-- A data write never faults: its address is a byte (R35). -/
@[simp] theorem memWrite_byte (s : State) (a v : Byte) :
    memWrite a.toNat v s = .ok (s.setMem (s.mem.set a.toNat v)) := memWrite_ok s v a.isLt

/-- Reads depend on the memory alone. -/
theorem memRead_congr {s t : State} (h : t.mem = s.mem) (x : Nat) : memRead x t = memRead x s := by
  simp [memRead, h]

/-- What a read sees after a write to memory. -/
theorem memRead_set (s t : State) (a x : Nat) (v : Byte) (h : t.mem = s.mem.set a v) :
    memRead x t = if x = a ∧ x < 256 then .ok v else memRead x s := by
  by_cases hx : x < 256
  · simp only [memRead_ok _ hx, h, get_set, hx, and_true]
    split <;> rfl
  · simp [memRead_bad _ (Nat.not_lt.1 hx), hx]

/-! ## Arithmetic -/

/-- `wrap8` as a number. -/
theorem wrap8_toNat (v : Int) : (wrap8 v).toNat = (v % 256).toNat := by
  simp only [wrap8, BitVec.toNat_ofNat]
  have := Int.emod_lt_of_pos v (by decide : (0 : Int) < 256)
  exact Nat.mod_eq_of_lt (by omega)

/-! ## Flags -/

/-- Everything the flag computation does: each flag is set by its own outcome and else keeps its value (R83, R84). -/
theorem compareFlags_eq (va vb : Byte) (f : Flags) :
    compareFlags va vb f =
      ⟨f.E || decide (va.toNat = vb.toNat), f.L || decide (va.toNat < vb.toNat), f.G || decide (vb.toNat < va.toNat)⟩ := by
  unfold compareFlags
  rcases Nat.lt_trichotomy va.toNat vb.toNat with h | h | h
  · simp [h, show ¬ vb.toNat < va.toNat by omega, show ¬ va.toNat = vb.toNat by omega]
  · simp [h]
  · simp [h, show ¬ va.toNat < vb.toNat by omega, show ¬ va.toNat = vb.toNat by omega]

/-! ## Fetch -/

/-- A fetch at a pc of at most 253 latches the three bytes (R68). -/
theorem fetch_ok (s : State) (h : s.pc ≤ 253) :
    fetch s = .ok ⟨s.mem.get s.pc, s.mem.get (s.pc + 1), s.mem.get (s.pc + 2)⟩ := by
  simp [fetch, memRead_ok s (show s.pc < 256 by omega), memRead_ok s (show s.pc + 1 < 256 by omega),
    memRead_ok s (show s.pc + 2 < 256 by omega)]

/-- A fetch at a pc above 255 records the pc (R111). -/
theorem fetch_above (s : State) (h : 255 < s.pc) : fetch s = .error (.addressOutOfRange s.pc) := by
  simp [fetch, memRead_bad s (show 256 ≤ s.pc by omega)]

/-- A fetch at 254 or 255 records address 256 (R111). -/
theorem fetch_edge (s : State) (h : 254 ≤ s.pc) (h' : s.pc ≤ 255) : fetch s = .error (.addressOutOfRange 256) := by
  obtain h0 | h0 : s.pc = 254 ∨ s.pc = 255 := by omega
  · simp [fetch, h0, memRead_ok, memRead_bad]
  · simp [fetch, h0, memRead_ok, memRead_bad]

end Sys2Proof.Machine
end

