-- ==== Sys2Proof/Laws/Exec.lean ====
section
/-! SUPPORT. Each instruction's meaning as one equation when its register operands are good, and the fault it takes when
one is not. Later proofs cite these equations and do not unfold a meaning. -/

namespace Sys2Proof.Machine

variable {a b : Byte} (s : State)

theorem exec_hlt : exec .hlt s = .next (halt .hlt (advance 1 s)) := rfl

theorem exec_ldi (imm : Byte) (ha : a.toNat < 8) :
    exec (.ldi a imm) s = .next (advance 3 (s.setReg ⟨a.toNat, ha⟩ imm)) := by
  simp [exec, execLdi, regIndex_ok a ha]

theorem exec_prn (ha : a.toNat < 8) :
    exec (.prn a) s = .next (advance 2 (emit (.outDec (s.reg ⟨a.toNat, ha⟩)) s)) := by
  simp [exec, execPrn, regIndex_ok a ha]

theorem exec_pra (ha : a.toNat < 8) :
    exec (.pra a) s = .next (advance 2 (emit (.outChar (s.reg ⟨a.toNat, ha⟩)) s)) := by
  simp [exec, execPra, regIndex_ok a ha]

theorem exec_mul (ha : a.toNat < 8) (hb : b.toNat < 8) :
    exec (.mul a b) s =
      .next (advance 3 (s.setReg ⟨a.toNat, ha⟩ (alu .mul (s.reg ⟨a.toNat, ha⟩) (s.reg ⟨b.toNat, hb⟩)))) := by
  simp [exec, execMul, regIndex_ok a ha, regIndex_ok b hb]

theorem exec_add (ha : a.toNat < 8) (hb : b.toNat < 8) :
    exec (.add a b) s =
      .next (advance 3 (s.setReg ⟨a.toNat, ha⟩ (alu .add (s.reg ⟨a.toNat, ha⟩) (s.reg ⟨b.toNat, hb⟩)))) := by
  simp [exec, execAdd, regIndex_ok a ha, regIndex_ok b hb]

theorem exec_inc (ha : a.toNat < 8) :
    exec (.inc a) s = .next (advance 2 (s.setReg ⟨a.toNat, ha⟩ (alu .inc (s.reg ⟨a.toNat, ha⟩) 0))) := by
  simp [exec, execInc, regIndex_ok a ha]

theorem exec_dec (ha : a.toNat < 8) :
    exec (.dec a) s = .next (advance 2 (s.setReg ⟨a.toNat, ha⟩ (alu .dec (s.reg ⟨a.toNat, ha⟩) 0))) := by
  simp [exec, execDec, regIndex_ok a ha]

theorem exec_cmp (ha : a.toNat < 8) (hb : b.toNat < 8) :
    exec (.cmp a b) s =
      .next (advance 3
        (s.setFlags (compareFlags (s.reg ⟨a.toNat, ha⟩) (s.reg ⟨b.toNat, hb⟩) s.flags))) := by
  simp [exec, execCmp, regIndex_ok a ha, regIndex_ok b hb]

theorem exec_push (ha : a.toNat < 8) :
    exec (.push a) s =
      .next (advance 2
        ((decSP s).setMem (s.mem.set ((decSP s).reg SP).toNat ((decSP s).reg ⟨a.toNat, ha⟩)))) := by
  simp only [exec, execPush, regIndex_ok a ha, ok_bind, memWrite_byte, pure_ok, perform_ok, decSP_mem]

theorem exec_pop (ha : a.toNat < 8) :
    exec (.pop a) s = .next (advance 2 (incSP (s.setReg ⟨a.toNat, ha⟩ (s.mem.get (s.reg SP).toNat)))) := by
  simp [exec, execPop, regIndex_ok a ha]

theorem exec_call (ha : a.toNat < 8) :
    exec (.call a) s =
      .next (jumpTo ((decSP s).reg ⟨a.toNat, ha⟩)
        ((decSP s).setMem (s.mem.set ((decSP s).reg SP).toNat (returnAddress s)))) := by
  simp only [exec, execCall, regIndex_ok a ha, ok_bind, memWrite_byte, pure_ok, perform_ok, decSP_mem, setMem_reg]

theorem exec_ret : exec .ret s = .next (incSP (jumpTo (s.mem.get (s.reg SP).toNat) s)) := by
  simp [exec, execRet]

theorem exec_jeq (ha : a.toNat < 8) :
    exec (.jeq a) s = .next (if s.flags.E then jumpTo (s.reg ⟨a.toNat, ha⟩) s else advance 2 s) := by
  simp [exec, execJeq, regIndex_ok a ha]

theorem exec_jne (ha : a.toNat < 8) :
    exec (.jne a) s = .next (if s.flags.E then advance 2 s else jumpTo (s.reg ⟨a.toNat, ha⟩) s) := by
  simp [exec, execJne, regIndex_ok a ha]

theorem exec_jmp (ha : a.toNat < 8) : exec (.jmp a) s = .next (jumpTo (s.reg ⟨a.toNat, ha⟩) s) := by
  simp [exec, execJmp, regIndex_ok a ha]

theorem exec_ld (ha : a.toNat < 8) (hb : b.toNat < 8) :
    exec (.ld a b) s =
      .next (advance 3 (s.setReg ⟨a.toNat, ha⟩ (s.mem.get (s.reg ⟨b.toNat, hb⟩).toNat))) := by
  simp [exec, execLd, regIndex_ok a ha, regIndex_ok b hb]

theorem exec_st (addr imm : Byte) :
    exec (.st addr imm) s = .next (advance 3 (s.setMem (s.mem.set addr.toNat imm))) := by
  simp [exec, execSt]

end Sys2Proof.Machine
end

