-- ==== Sys2Proof/Laws/Output.lean ====
section
/-! SUPPORT. What showing an event does to the display. -/

namespace Sys2Proof.Machine

@[simp] theorem addText_lines (text : String) (d : Display) : (d.addText text).lines = d.lines := rfl

@[simp] theorem addText_current (text : String) (d : Display) : (d.addText text).current = d.current ++ text := rfl

@[simp] theorem addLine_lines (text : String) (d : Display) : (d.addLine text).lines = d.endLine.lines ++ [text] := rfl

@[simp] theorem addLine_current (text : String) (d : Display) : (d.addLine text).current = "" := rfl

/-- Nothing is left begun after a line has ended. -/
@[simp] theorem endLine_current (d : Display) : d.endLine.current = "" := by
  unfold Display.endLine; split
  · assumption
  · rfl

/-- Ending a line adds at most the line that was begun, and changes no line that had ended. -/
theorem endLine_lines (d : Display) :
    d.endLine.lines = if d.current = "" then d.lines else d.lines ++ [d.current] := by
  unfold Display.endLine; split <;> rfl

theorem endLine_extends (d : Display) : d.lines <+: d.endLine.lines := by
  rw [endLine_lines]; split
  · exact List.prefix_rfl
  · exact List.prefix_append _ _

/-- Showing an event changes no line that had ended. -/
theorem renderEvent_extends (d : Display) (ev : OutEvent) : d.lines <+: (renderEvent d ev).lines := by
  cases ev with
  | outDec v => exact (endLine_extends d).trans (List.prefix_append _ _)
  | outChar v =>
    simp only [renderEvent]; split
    · exact endLine_extends (d.addText _)
    · exact List.prefix_rfl
  | unrecognized op =>
    have start : d.lines <+: (if Config.reportStartsLine op then d.endLine else d).lines := by
      split
      · exact endLine_extends d
      · exact List.prefix_rfl
    simp only [renderEvent]
    generalize (if Config.reportStartsLine op then d.endLine else d) = d1 at start
    split
    · exact start.trans (endLine_extends (d1.addText _))
    · exact start

end Sys2Proof.Machine
end

