-- ==== Sys2Proof/Laws/PerInstr.lean ====
section
/-! SUPPORT. Facts about each instruction as syntax, one lemma for each constructor of Instr. -/

/-- The encoding has the instruction's length, which is 1, 2 or 3 bytes, under every opcode assignment (R49, R50). -/
def Sys2Proof.Laws.EncodedLength.Statement (i : Sys2Proof.Instr) : Prop :=
  ∀ opc : Sys2Proof.OpcodeMap,
    (Sys2Proof.encodeWith opc i).length = Sys2Proof.instrLength i ∧ 1 ≤ Sys2Proof.instrLength i ∧ Sys2Proof.instrLength i ≤ 3

/-- The instruction is rebuilt from its mnemonic and its own operand bytes, whatever bytes follow them (R51, R57). -/
def Sys2Proof.Laws.Rebuild.Statement (i : Sys2Proof.Instr) : Prop :=
  ∀ x y : Sys2Proof.Byte,
    Sys2Proof.buildInstr (Sys2Proof.mnemonicOf i) ((Sys2Proof.operandBytes i ++ [x, y]).getD 0 0)
      ((Sys2Proof.operandBytes i ++ [x, y]).getD 1 0) = i

/-- A register operand of the instruction is one of its operand bytes (R50, R71). -/
def Sys2Proof.Laws.RegOperands.Statement (i : Sys2Proof.Instr) : Prop :=
  ∀ b ∈ i.regOperands, b ∈ Sys2Proof.operandBytes i

theorem Sys2Proof.Laws.EncodedLength.hlt : Sys2Proof.Laws.EncodedLength.Statement .hlt := fun _ => ⟨rfl, Nat.le_of_ble_eq_true rfl, Nat.le_of_ble_eq_true rfl⟩
theorem Sys2Proof.Laws.EncodedLength.ldi (a imm : Sys2Proof.Byte) : Sys2Proof.Laws.EncodedLength.Statement (.ldi a imm) := fun _ => ⟨rfl, Nat.le_of_ble_eq_true rfl, Nat.le_of_ble_eq_true rfl⟩
theorem Sys2Proof.Laws.EncodedLength.prn (a : Sys2Proof.Byte) : Sys2Proof.Laws.EncodedLength.Statement (.prn a) := fun _ => ⟨rfl, Nat.le_of_ble_eq_true rfl, Nat.le_of_ble_eq_true rfl⟩
theorem Sys2Proof.Laws.EncodedLength.pra (a : Sys2Proof.Byte) : Sys2Proof.Laws.EncodedLength.Statement (.pra a) := fun _ => ⟨rfl, Nat.le_of_ble_eq_true rfl, Nat.le_of_ble_eq_true rfl⟩
theorem Sys2Proof.Laws.EncodedLength.mul (a b : Sys2Proof.Byte) : Sys2Proof.Laws.EncodedLength.Statement (.mul a b) := fun _ => ⟨rfl, Nat.le_of_ble_eq_true rfl, Nat.le_of_ble_eq_true rfl⟩
theorem Sys2Proof.Laws.EncodedLength.add (a b : Sys2Proof.Byte) : Sys2Proof.Laws.EncodedLength.Statement (.add a b) := fun _ => ⟨rfl, Nat.le_of_ble_eq_true rfl, Nat.le_of_ble_eq_true rfl⟩
theorem Sys2Proof.Laws.EncodedLength.inc (a : Sys2Proof.Byte) : Sys2Proof.Laws.EncodedLength.Statement (.inc a) := fun _ => ⟨rfl, Nat.le_of_ble_eq_true rfl, Nat.le_of_ble_eq_true rfl⟩
theorem Sys2Proof.Laws.EncodedLength.dec (a : Sys2Proof.Byte) : Sys2Proof.Laws.EncodedLength.Statement (.dec a) := fun _ => ⟨rfl, Nat.le_of_ble_eq_true rfl, Nat.le_of_ble_eq_true rfl⟩
theorem Sys2Proof.Laws.EncodedLength.push (a : Sys2Proof.Byte) : Sys2Proof.Laws.EncodedLength.Statement (.push a) := fun _ => ⟨rfl, Nat.le_of_ble_eq_true rfl, Nat.le_of_ble_eq_true rfl⟩
theorem Sys2Proof.Laws.EncodedLength.pop (a : Sys2Proof.Byte) : Sys2Proof.Laws.EncodedLength.Statement (.pop a) := fun _ => ⟨rfl, Nat.le_of_ble_eq_true rfl, Nat.le_of_ble_eq_true rfl⟩
theorem Sys2Proof.Laws.EncodedLength.call (a : Sys2Proof.Byte) : Sys2Proof.Laws.EncodedLength.Statement (.call a) := fun _ => ⟨rfl, Nat.le_of_ble_eq_true rfl, Nat.le_of_ble_eq_true rfl⟩
theorem Sys2Proof.Laws.EncodedLength.ret : Sys2Proof.Laws.EncodedLength.Statement .ret := fun _ => ⟨rfl, Nat.le_of_ble_eq_true rfl, Nat.le_of_ble_eq_true rfl⟩
theorem Sys2Proof.Laws.EncodedLength.cmp (a b : Sys2Proof.Byte) : Sys2Proof.Laws.EncodedLength.Statement (.cmp a b) := fun _ => ⟨rfl, Nat.le_of_ble_eq_true rfl, Nat.le_of_ble_eq_true rfl⟩
theorem Sys2Proof.Laws.EncodedLength.jeq (a : Sys2Proof.Byte) : Sys2Proof.Laws.EncodedLength.Statement (.jeq a) := fun _ => ⟨rfl, Nat.le_of_ble_eq_true rfl, Nat.le_of_ble_eq_true rfl⟩
theorem Sys2Proof.Laws.EncodedLength.jne (a : Sys2Proof.Byte) : Sys2Proof.Laws.EncodedLength.Statement (.jne a) := fun _ => ⟨rfl, Nat.le_of_ble_eq_true rfl, Nat.le_of_ble_eq_true rfl⟩
theorem Sys2Proof.Laws.EncodedLength.jmp (a : Sys2Proof.Byte) : Sys2Proof.Laws.EncodedLength.Statement (.jmp a) := fun _ => ⟨rfl, Nat.le_of_ble_eq_true rfl, Nat.le_of_ble_eq_true rfl⟩
theorem Sys2Proof.Laws.EncodedLength.ld (a b : Sys2Proof.Byte) : Sys2Proof.Laws.EncodedLength.Statement (.ld a b) := fun _ => ⟨rfl, Nat.le_of_ble_eq_true rfl, Nat.le_of_ble_eq_true rfl⟩
theorem Sys2Proof.Laws.EncodedLength.st (addr imm : Sys2Proof.Byte) : Sys2Proof.Laws.EncodedLength.Statement (.st addr imm) := fun _ => ⟨rfl, Nat.le_of_ble_eq_true rfl, Nat.le_of_ble_eq_true rfl⟩

theorem Sys2Proof.Laws.Rebuild.hlt : Sys2Proof.Laws.Rebuild.Statement .hlt := fun _ _ => rfl
theorem Sys2Proof.Laws.Rebuild.ldi (a imm : Sys2Proof.Byte) : Sys2Proof.Laws.Rebuild.Statement (.ldi a imm) := fun _ _ => rfl
theorem Sys2Proof.Laws.Rebuild.prn (a : Sys2Proof.Byte) : Sys2Proof.Laws.Rebuild.Statement (.prn a) := fun _ _ => rfl
theorem Sys2Proof.Laws.Rebuild.pra (a : Sys2Proof.Byte) : Sys2Proof.Laws.Rebuild.Statement (.pra a) := fun _ _ => rfl
theorem Sys2Proof.Laws.Rebuild.mul (a b : Sys2Proof.Byte) : Sys2Proof.Laws.Rebuild.Statement (.mul a b) := fun _ _ => rfl
theorem Sys2Proof.Laws.Rebuild.add (a b : Sys2Proof.Byte) : Sys2Proof.Laws.Rebuild.Statement (.add a b) := fun _ _ => rfl
theorem Sys2Proof.Laws.Rebuild.inc (a : Sys2Proof.Byte) : Sys2Proof.Laws.Rebuild.Statement (.inc a) := fun _ _ => rfl
theorem Sys2Proof.Laws.Rebuild.dec (a : Sys2Proof.Byte) : Sys2Proof.Laws.Rebuild.Statement (.dec a) := fun _ _ => rfl
theorem Sys2Proof.Laws.Rebuild.push (a : Sys2Proof.Byte) : Sys2Proof.Laws.Rebuild.Statement (.push a) := fun _ _ => rfl
theorem Sys2Proof.Laws.Rebuild.pop (a : Sys2Proof.Byte) : Sys2Proof.Laws.Rebuild.Statement (.pop a) := fun _ _ => rfl
theorem Sys2Proof.Laws.Rebuild.call (a : Sys2Proof.Byte) : Sys2Proof.Laws.Rebuild.Statement (.call a) := fun _ _ => rfl
theorem Sys2Proof.Laws.Rebuild.ret : Sys2Proof.Laws.Rebuild.Statement .ret := fun _ _ => rfl
theorem Sys2Proof.Laws.Rebuild.cmp (a b : Sys2Proof.Byte) : Sys2Proof.Laws.Rebuild.Statement (.cmp a b) := fun _ _ => rfl
theorem Sys2Proof.Laws.Rebuild.jeq (a : Sys2Proof.Byte) : Sys2Proof.Laws.Rebuild.Statement (.jeq a) := fun _ _ => rfl
theorem Sys2Proof.Laws.Rebuild.jne (a : Sys2Proof.Byte) : Sys2Proof.Laws.Rebuild.Statement (.jne a) := fun _ _ => rfl
theorem Sys2Proof.Laws.Rebuild.jmp (a : Sys2Proof.Byte) : Sys2Proof.Laws.Rebuild.Statement (.jmp a) := fun _ _ => rfl
theorem Sys2Proof.Laws.Rebuild.ld (a b : Sys2Proof.Byte) : Sys2Proof.Laws.Rebuild.Statement (.ld a b) := fun _ _ => rfl
theorem Sys2Proof.Laws.Rebuild.st (addr imm : Sys2Proof.Byte) : Sys2Proof.Laws.Rebuild.Statement (.st addr imm) := fun _ _ => rfl

theorem Sys2Proof.Laws.RegOperands.hlt : Sys2Proof.Laws.RegOperands.Statement .hlt := by
  simp [Sys2Proof.Laws.RegOperands.Statement, Sys2Proof.Instr.regOperands, Sys2Proof.operandBytes]
theorem Sys2Proof.Laws.RegOperands.ldi (a imm : Sys2Proof.Byte) : Sys2Proof.Laws.RegOperands.Statement (.ldi a imm) := by
  simp [Sys2Proof.Laws.RegOperands.Statement, Sys2Proof.Instr.regOperands, Sys2Proof.operandBytes]
theorem Sys2Proof.Laws.RegOperands.prn (a : Sys2Proof.Byte) : Sys2Proof.Laws.RegOperands.Statement (.prn a) := by
  simp [Sys2Proof.Laws.RegOperands.Statement, Sys2Proof.Instr.regOperands, Sys2Proof.operandBytes]
theorem Sys2Proof.Laws.RegOperands.pra (a : Sys2Proof.Byte) : Sys2Proof.Laws.RegOperands.Statement (.pra a) := by
  simp [Sys2Proof.Laws.RegOperands.Statement, Sys2Proof.Instr.regOperands, Sys2Proof.operandBytes]
theorem Sys2Proof.Laws.RegOperands.mul (a b : Sys2Proof.Byte) : Sys2Proof.Laws.RegOperands.Statement (.mul a b) := by
  simp [Sys2Proof.Laws.RegOperands.Statement, Sys2Proof.Instr.regOperands, Sys2Proof.operandBytes]
theorem Sys2Proof.Laws.RegOperands.add (a b : Sys2Proof.Byte) : Sys2Proof.Laws.RegOperands.Statement (.add a b) := by
  simp [Sys2Proof.Laws.RegOperands.Statement, Sys2Proof.Instr.regOperands, Sys2Proof.operandBytes]
theorem Sys2Proof.Laws.RegOperands.inc (a : Sys2Proof.Byte) : Sys2Proof.Laws.RegOperands.Statement (.inc a) := by
  simp [Sys2Proof.Laws.RegOperands.Statement, Sys2Proof.Instr.regOperands, Sys2Proof.operandBytes]
theorem Sys2Proof.Laws.RegOperands.dec (a : Sys2Proof.Byte) : Sys2Proof.Laws.RegOperands.Statement (.dec a) := by
  simp [Sys2Proof.Laws.RegOperands.Statement, Sys2Proof.Instr.regOperands, Sys2Proof.operandBytes]
theorem Sys2Proof.Laws.RegOperands.push (a : Sys2Proof.Byte) : Sys2Proof.Laws.RegOperands.Statement (.push a) := by
  simp [Sys2Proof.Laws.RegOperands.Statement, Sys2Proof.Instr.regOperands, Sys2Proof.operandBytes]
theorem Sys2Proof.Laws.RegOperands.pop (a : Sys2Proof.Byte) : Sys2Proof.Laws.RegOperands.Statement (.pop a) := by
  simp [Sys2Proof.Laws.RegOperands.Statement, Sys2Proof.Instr.regOperands, Sys2Proof.operandBytes]
theorem Sys2Proof.Laws.RegOperands.call (a : Sys2Proof.Byte) : Sys2Proof.Laws.RegOperands.Statement (.call a) := by
  simp [Sys2Proof.Laws.RegOperands.Statement, Sys2Proof.Instr.regOperands, Sys2Proof.operandBytes]
theorem Sys2Proof.Laws.RegOperands.ret : Sys2Proof.Laws.RegOperands.Statement .ret := by
  simp [Sys2Proof.Laws.RegOperands.Statement, Sys2Proof.Instr.regOperands, Sys2Proof.operandBytes]
theorem Sys2Proof.Laws.RegOperands.cmp (a b : Sys2Proof.Byte) : Sys2Proof.Laws.RegOperands.Statement (.cmp a b) := by
  simp [Sys2Proof.Laws.RegOperands.Statement, Sys2Proof.Instr.regOperands, Sys2Proof.operandBytes]
theorem Sys2Proof.Laws.RegOperands.jeq (a : Sys2Proof.Byte) : Sys2Proof.Laws.RegOperands.Statement (.jeq a) := by
  simp [Sys2Proof.Laws.RegOperands.Statement, Sys2Proof.Instr.regOperands, Sys2Proof.operandBytes]
theorem Sys2Proof.Laws.RegOperands.jne (a : Sys2Proof.Byte) : Sys2Proof.Laws.RegOperands.Statement (.jne a) := by
  simp [Sys2Proof.Laws.RegOperands.Statement, Sys2Proof.Instr.regOperands, Sys2Proof.operandBytes]
theorem Sys2Proof.Laws.RegOperands.jmp (a : Sys2Proof.Byte) : Sys2Proof.Laws.RegOperands.Statement (.jmp a) := by
  simp [Sys2Proof.Laws.RegOperands.Statement, Sys2Proof.Instr.regOperands, Sys2Proof.operandBytes]
theorem Sys2Proof.Laws.RegOperands.ld (a b : Sys2Proof.Byte) : Sys2Proof.Laws.RegOperands.Statement (.ld a b) := by
  simp [Sys2Proof.Laws.RegOperands.Statement, Sys2Proof.Instr.regOperands, Sys2Proof.operandBytes]
theorem Sys2Proof.Laws.RegOperands.st (addr imm : Sys2Proof.Byte) : Sys2Proof.Laws.RegOperands.Statement (.st addr imm) := by
  simp [Sys2Proof.Laws.RegOperands.Statement, Sys2Proof.Instr.regOperands, Sys2Proof.operandBytes]
end

