-- ==== Sys2Proof/Laws/Step.lean ====
section
/-! SUPPORT. What one step of the core can do (R67), said once. -/

namespace Sys2Proof.Machine

variable {opc : OpcodeMap} {s : State}

theorem cycle_stopped (h : s.status ≠ .running) : cycle opc s = .next s := by
  unfold cycle; split <;> simp_all

theorem cycle_fetch_fault {r : Fault} (h : s.status = .running) (hf : fetch s = .error r) :
    cycle opc s = .next (takeFault r s) := by
  simp [cycle, h, hf]

theorem cycle_unrecognized {l : Latch} {op : Byte} (h : s.status = .running) (hf : fetch s = .ok l)
    (hd : decodeWith opc l = .error (.unrecognized op)) : cycle opc s = .next (reportUnrecognized op s) := by
  simp [cycle, h, hf, hd]

theorem cycle_exec {l : Latch} {i : Instr} (h : s.status = .running) (hf : fetch s = .ok l)
    (hd : decodeWith opc l = .ok i) : cycle opc s = exec i s := by
  simp [cycle, h, hf, hd]

/-- Everything a step can be: no step of a stopped core, a fetch fault, the report of an unrecognized opcode, or the
decoded instruction. -/
theorem cycle_cases (opc : OpcodeMap) (s : State) :
    (s.status ≠ .running ∧ cycle opc s = .next s) ∨
    (s.status = .running ∧ ∃ r, fetch s = .error r ∧ cycle opc s = .next (takeFault r s)) ∨
    (s.status = .running ∧ ∃ l, fetch s = .ok l ∧ (∀ m, opc m ≠ l.opcode) ∧
      cycle opc s = .next (reportUnrecognized l.opcode s)) ∨
    (s.status = .running ∧ ∃ l m, fetch s = .ok l ∧ opc m = l.opcode ∧
      cycle opc s = exec (buildInstr m l.a l.b) s) := by
  by_cases h : s.status = .running
  · right
    cases hf : fetch s with
    | error r => exact .inl ⟨h, r, rfl, cycle_fetch_fault h hf⟩
    | ok l =>
      right
      rcases decodeWith_cases opc l with ⟨m, hm, hd⟩ | ⟨hn, hd⟩
      · exact .inr ⟨h, l, m, rfl, hm, cycle_exec h hf hd⟩
      · exact .inl ⟨h, l, rfl, hn, cycle_unrecognized h hf hd⟩
  · exact .inl ⟨h, cycle_stopped h⟩

/-- Everything a fetch can answer (R68, R111). -/
theorem fetch_cases (s : State) :
    (s.pc ≤ 253 ∧ fetch s = .ok ⟨s.mem.get s.pc, s.mem.get (s.pc + 1), s.mem.get (s.pc + 2)⟩) ∨
    (254 ≤ s.pc ∧ fetch s = .error (.addressOutOfRange (if 255 < s.pc then s.pc else 256))) := by
  by_cases h : s.pc ≤ 253
  · exact .inl ⟨h, fetch_ok s h⟩
  · right
    refine ⟨by omega, ?_⟩
    split
    · exact fetch_above s ‹_›
    · exact fetch_edge s (by omega) (by omega)

end Sys2Proof.Machine
end

