-- ==== Sys2Proof/Tests/Slice0.lean ====
section
/-! SUPPORT. The model's own tests. Expected results come from the spec: R55's binary column for the words, the source's
examples S1 to S9 and the vectors V-… of 95_test_vectors.md for the steps. Then, for every statement of Obligations.lean
with hypotheses, a concrete state and operands that meet them. -/

namespace Sys2Proof.Tests

open Sys2Proof Sys2Proof.Machine

/-! ## Helpers -/

/-- The reset state with an image at address 0. -/
def start (img : List Byte) : State := State.reset.setMem (storeBytes 0 img [])

/-- The next state of an outcome. -/
def after (o : Host.Outcome State Fault Refusal) : Option State :=
  match o with
  | .next t => some t
  | .fault _ => none
  | .refused _ => none

/-- Some view of the state after one step. -/
def see {α : Type} (s : State) (view : State → α) : Option α := (after (step s)).map view

/-! ## WellFormed: one ill-formed term for each check -/

theorem test_wellFormed_refuses_first_register : (Instr.inc 8).wellFormed = false := by decide
theorem test_wellFormed_refuses_second_register : (Instr.mul 7 8).wellFormed = false := by decide
theorem test_wellFormed_refuses_both_registers : (Instr.cmp 0xFF 0xFF).wellFormed = false := by decide
theorem test_wellFormed_admits_top_register : (Instr.ld 7 7).wellFormed = true := by decide
theorem test_wellFormed_admits_any_immediate : (Instr.st 0xFF 0xFF).wellFormed = true := by decide

/-! ## Decoding: each row's word, written out from R55's binary column and R50's formats -/

theorem test_decode_hlt : decode ⟨0b00000001, 0xFF, 0xFF⟩ = .ok .hlt := by rfl
theorem test_decode_ldi : decode ⟨0b10000010, 0b00000000, 0b00001000⟩ = .ok (.ldi 0 8) := by rfl
theorem test_decode_prn : decode ⟨0b01000111, 0b00000011, 0xFF⟩ = .ok (.prn 3) := by rfl
theorem test_decode_pra : decode ⟨0b01001000, 0b00000110, 0xFF⟩ = .ok (.pra 6) := by rfl
theorem test_decode_mul : decode ⟨0b10100010, 0b00000001, 0b00000010⟩ = .ok (.mul 1 2) := by rfl
theorem test_decode_add : decode ⟨0b10100000, 0b00000001, 0b00000010⟩ = .ok (.add 1 2) := by rfl
theorem test_decode_inc : decode ⟨0b01100101, 0b00000101, 0xFF⟩ = .ok (.inc 5) := by rfl
theorem test_decode_dec : decode ⟨0b01100110, 0b00000101, 0xFF⟩ = .ok (.dec 5) := by rfl
theorem test_decode_push : decode ⟨0b01000101, 0b00000010, 0xFF⟩ = .ok (.push 2) := by rfl
theorem test_decode_pop : decode ⟨0b01000110, 0b00000010, 0xFF⟩ = .ok (.pop 2) := by rfl
theorem test_decode_call : decode ⟨0b01010000, 0b00000001, 0xFF⟩ = .ok (.call 1) := by rfl
theorem test_decode_ret : decode ⟨0b00010001, 0xFF, 0xFF⟩ = .ok .ret := by rfl
theorem test_decode_cmp : decode ⟨0b10100111, 0b00000001, 0b00000010⟩ = .ok (.cmp 1 2) := by rfl
theorem test_decode_jeq : decode ⟨0b01010101, 0b00000010, 0xFF⟩ = .ok (.jeq 2) := by rfl
theorem test_decode_jne : decode ⟨0b01010110, 0b00000011, 0xFF⟩ = .ok (.jne 3) := by rfl
theorem test_decode_jmp : decode ⟨0b01010100, 0b00000000, 0xFF⟩ = .ok (.jmp 0) := by rfl
theorem test_decode_ld : decode ⟨0b10000011, 0b00000101, 0b00000100⟩ = .ok (.ld 5 4) := by rfl
theorem test_decode_st : decode ⟨0b10000100, 0b01000000, 0b11111111⟩ = .ok (.st 0x40 0xFF) := by rfl
theorem test_decode_register_byte_not_masked : decode ⟨0x47, 0xFF, 0x00⟩ = .ok (.prn 0xFF) := by rfl
theorem test_decode_sub_is_unrecognized : decode ⟨0xA1, 0, 1⟩ = .error (.unrecognized 0xA1) := by rfl

/-- The first byte of the instruction is the table's bits 7..0 (opcode_table.json). -/
theorem test_decodeTableWord_byte_order : decodeTableWord 24 0x010282 = some (.ldi 2 1) := by rfl
theorem test_decodeTableWord_zero_above_nbits : decodeTableWord 8 0xFFFF82 = some (.ldi 0 0) := by rfl
theorem test_encode_ldi : encode (.ldi 0 8) = [0x82, 0x00, 0x08] := by rfl

/-! ## One step each -/

/-- V-MUL-3 -/
theorem test_mul_keeps_low_byte :
    see ((start [0xA2, 0, 1]).setReg 0 0xFF |>.setReg 1 0xFF) (fun t => (t.reg 0, t.reg 1, t.pc)) =
      some (0x01, 0xFF, 3) := by decide
/-- V-MUL-6 -/
theorem test_mul_bad_second_register :
    see ((start [0xA2, 0, 9]).setReg 0 3) (fun t => (t.status, t.reg 0, t.pc)) =
      some (.faulted (.badRegister 9), 3, 0) := by decide
/-- V-ADD-1 -/
theorem test_add_wraps :
    see ((start [0xA0, 0, 1]).setReg 0 200 |>.setReg 1 100) (fun t => (t.reg 0, t.reg 1, t.flags)) =
      some (0x2C, 100, ⟨false, false, false⟩) := by decide
/-- V-ADD-3 -/
theorem test_add_same_register : see ((start [0xA0, 0, 0]).setReg 0 7) (fun t => t.reg 0) = some 0x0E := by decide
/-- V-INC-1 -/
theorem test_inc_wraps : see ((start [0x65, 5]).setReg 5 0xFF) (fun t => (t.reg 5, t.pc)) = some (0x00, 2) := by decide
/-- V-INC-2 -/
theorem test_inc_ignores_third_byte :
    see ((start [0x65, 0, 9]).setReg 0 0x41) (fun t => (t.reg 0, t.pc)) = some (0x42, 2) := by decide
/-- V-DEC-2 -/
theorem test_dec_wraps : see (start [0x66, 0]) (fun t => (t.reg 0, t.flags.E)) = some (0xFF, false) := by decide
/-- V-CMP-5 -/
theorem test_cmp_is_unsigned :
    see ((start [0xA7, 0, 1]).setReg 1 0xFF) (fun t => (t.flags, t.pc)) = some (⟨false, true, false⟩, 3) := by decide
/-- V-CMP-7 -/
theorem test_cmp_keeps_flags :
    see ((start [0xA7, 0, 1]).setFlags ⟨false, false, true⟩ |>.setReg 0 1 |>.setReg 1 2) (fun t => t.flags) =
      some ⟨false, true, true⟩ := by decide
/-- V-LDI-3 -/
theorem test_ldi_sets_stack_pointer : see (start [0x82, 7, 0x10]) (fun t => (t.reg SP, t.pc)) = some (0x10, 3) := by decide
/-- V-PUSH-2 -/
theorem test_push_wraps_stack_pointer :
    see ((start [0x45, 0]).setReg 7 0x00 |>.setReg 0 0x77) (fun t => (t.reg 7, t.mem.get 0xFF, t.pc)) =
      some (0xFF, 0x77, 2) := by decide
/-- V-PUSH-3 -/
theorem test_push_stack_pointer_stores_decremented :
    see (start [0x45, 7]) (fun t => (t.reg 7, t.mem.get 0xF3)) = some (0xF3, 0xF3) := by decide
/-- V-POP-1 -/
theorem test_pop_loads_then_increments :
    see ((start [0x46, 2]).setReg 7 0xF3 |> fun s => s.setMem (s.mem.set 0xF3 0x2A))
      (fun t => (t.reg 2, t.reg 7, t.mem.get 0xF3)) = some (0x2A, 0xF4, 0x2A) := by decide
/-- V-POP-4 -/
theorem test_pop_stack_pointer_increments_loaded :
    see ((start [0x46, 7]).setReg 7 0xF3 |> fun s => s.setMem (s.mem.set 0xF3 0x10)) (fun t => t.reg 7) =
      some 0x11 := by decide
/-- V-LD-2 -/
theorem test_ld_uses_old_register : see (start [0x83, 0, 0]) (fun t => (t.reg 0, t.pc)) = some (0x83, 3) := by decide
/-- V-LD-3 -/
theorem test_ld_top_address :
    see ((start [0x83, 0, 1]).setReg 1 0xFF |> fun s => s.setMem (s.mem.set 0xFF 0x5A)) (fun t => t.reg 0) =
      some 0x5A := by decide
/-- V-ST-5 -/
theorem test_st_is_not_register_indirect :
    see ((start [0x84, 0x00, 0x30]).setReg 0 0x12) (fun t => (t.mem.get 0, t.reg 0, t.pc)) = some (0x30, 0x12, 3) := by
  decide
/-- V-ST-2 -/
theorem test_st_checks_no_register : see (start [0x84, 0xFF, 0x09]) (fun t => (t.mem.get 0xFF, t.status)) =
    some (0x09, .running) := by decide
/-- V-CALL-2 -/
theorem test_call_stack_pointer :
    see (start [0x50, 7]) (fun t => (t.reg 7, t.mem.get 0xF3, t.pc)) = some (0xF3, 0x02, 0xF3) := by decide
/-- V-CALL-1 -/
theorem test_call_pushes_return_address :
    see ({ start [0, 0, 0, 0, 0, 0, 0x50, 1] with pc := 6 }.setReg 1 0x0B)
      (fun t => (t.reg 7, t.mem.get 0xF3, t.pc)) = some (0xF3, 0x08, 0x0B) := by decide
/-- V-RET-2 -/
theorem test_ret_wraps_stack_pointer :
    see ((start [0x11]).setReg 7 0xFF |> fun s => s.setMem (s.mem.set 0xFF 0x20)) (fun t => (t.pc, t.reg 7)) =
      some (0x20, 0x00) := by decide
/-- V-JEQ-2 -/
theorem test_jeq_not_taken :
    see ((start [0x55, 2]).setFlags ⟨false, true, true⟩ |>.setReg 2 0x10) (fun t => t.pc) = some 2 := by decide
/-- V-JEQ-3 -/
theorem test_jeq_checks_register_when_not_taken :
    see (start [0x55, 8]) (fun t => (t.status, t.pc)) = some (.faulted (.badRegister 8), 0) := by decide
/-- V-JNE-3 -/
theorem test_jne_taken :
    see ((start [0x56, 3]).setFlags ⟨false, false, true⟩ |>.setReg 3 0x1E) (fun t => t.pc) = some 0x1E := by decide
/-- V-JNE-2 -/
theorem test_jne_not_taken :
    see ((start [0x56, 3]).setFlags ⟨true, true, false⟩ |>.setReg 3 0x1E) (fun t => t.pc) = some 2 := by decide
/-- V-JMP-1 -/
theorem test_jmp_lands_exactly : see ((start [0x54, 0]).setReg 0 0x20) (fun t => t.pc) = some 0x20 := by decide
/-- V-HLT-2 -/
theorem test_hlt_at_253 :
    see ({ start [] with pc := 0xFD, mem := [(0xFD, 0x01)] }) (fun t => (t.status, t.pc, t.out)) =
      some (.halted .hlt, 0xFE, []) := by decide
/-- S9 -/
theorem test_prn_reset_stack_pointer : see (start [0x47, 7]) (fun t => (t.out, t.pc)) = some ([.outDec 244], 2) := by
  decide
/-- V-PRA-3 -/
theorem test_pra_emits_any_value :
    see ((start [0x48, 0]).setReg 0 0xE9) (fun t => t.out) = some [.outChar 0xE9] := by decide
/-- R105: two numbers are two lines. -/
theorem test_display_numbers_on_own_lines : displayOf [.outDec 8, .outDec 255] = ⟨["8", "255"], ""⟩ := by decide
/-- R105 and R106: a number after a character has its own line, whether or not the host ends the character's line. -/
theorem test_display_number_after_character :
    (displayOf [.outChar 0x41, .outDec 8]).lines = ["A", "8"] := by
  simp only [displayOf, List.foldl, renderEvent]
  cases Config.charEndsLine 0x41 <;> decide
/-- V-SUB-1 -/
theorem test_sub_byte_halts :
    see ((start [0xA1, 0, 1]).setReg 0 5) (fun t => (t.out, t.status, t.reg 0, t.pc)) =
      some ([.unrecognized 0xA1], .halted (.unrecognized 0xA1), 5, 0) := by decide
/-- V-F-2 -/
theorem test_fetch_at_255_faults :
    see ({ start [] with pc := 0xFF, mem := [(0xFF, 0x01)] }) (fun t => (t.status, t.pc)) =
      some (.faulted (.addressOutOfRange 256), 0xFF) := by decide
/-- V-F-9 -/
theorem test_halted_core_stays :
    after (step { State.reset with status := .halted .hlt }) = some { State.reset with status := .halted .hlt } := by
  decide
/-- A placed word is fetched from a halted state at the top of memory as well. -/
theorem test_withFetchWord_runs :
    see (State.withFetchWord { State.reset with pc := 256, status := .halted .hlt } 24 0x080082) (fun t => (t.reg 0, t.pc)) =
      some (8, 3) := by decide

/-! ## Witnesses: a state and operands that meet each statement's hypotheses -/

/-- The default opcode map is an injective opcode assignment: DecodingAnEncodingGivesTheInstruction,
DecodingMatchesTheWholeOpcodeByte, FormatsFixOperandsAndLengths. -/
theorem witness_injective_assignment : Function.Injective opcodeMap := opcodeMap_injective

theorem witness_EncodingADecodedInstructionGivesItsBytes :
    decodeWith opcodeMap ⟨0x84, 0xFF, 0xFF⟩ = .ok (.st 0xFF 0xFF) := by rfl

theorem witness_DecodingMatchesTheWholeOpcodeByte_match : opcodeMap .ret = (⟨0x11, 0, 0⟩ : Latch).opcode := by rfl
theorem witness_DecodingMatchesTheWholeOpcodeByte_none : ∀ m, opcodeMap m ≠ (⟨0xFF, 0, 0⟩ : Latch).opcode := by
  intro m; cases m <;> decide
theorem witness_DecodingMatchesTheWholeOpcodeByte_advance :
    (Instr.ld 7 7).wellFormed = true ∧ mnemonicOf (.ld 7 7) ∉ [.call, .ret, .jeq, .jne, .jmp] := by decide

/-- InstructionBytesAtThePcAreExecuted: a three-byte instruction with two different operands at the last pc from which a
fetch completes. -/
theorem witness_InstructionBytesAtThePcAreExecuted :
    ∃ s : State, s.status = .running ∧ s.pc = 253 ∧
      ∀ (k : Nat) (hk : k < (encodeWith opcodeMap (.add 1 2)).length),
        memRead (s.pc + k) s = .ok (encodeWith opcodeMap (.add 1 2))[k] :=
  ⟨{ State.reset with pc := 253, mem := [(253, 0xA0), (254, 0x01), (255, 0x02)] }, rfl, rfl, by decide⟩

theorem witness_FormatsFixOperandsAndLengths_lengths :
    mnemonicOf .ret ∈ [Mnemonic.hlt, .ret] ∧
    mnemonicOf (.jmp 0) ∈ [Mnemonic.prn, .pra, .inc, .dec, .push, .pop, .call, .jeq, .jne, .jmp] ∧
    mnemonicOf (.st 0 0) ∈ [Mnemonic.mul, .add, .cmp, .ld, .ldi, .st] := by decide

/-- StepRunsTheDecodedInstruction, at the last pc from which a fetch completes; also the fetch clause of
FetchAtTheTopOfMemoryFaults. -/
theorem witness_StepRunsTheDecodedInstruction :
    ∃ s : State, s.status = .running ∧ s.pc = 253 ∧ fetches s 0xA0 0x00 0x01 ∧
      decode ⟨0xA0, 0x00, 0x01⟩ = .ok (.add 0 1) :=
  ⟨{ State.reset with pc := 253, mem := [(253, 0xA0), (255, 0x01)] }, rfl, rfl, ⟨rfl, rfl, rfl⟩, rfl⟩

/-- CycleFetchesDecodesChecksExecutes: the first, the second and the third read fault. -/
theorem witness_CycleFetchesDecodesChecksExecutes_fetch :
    memRead 256 State.reset = .error (.addressOutOfRange 256) ∧
    (memRead 255 State.reset = .ok 0 ∧ memRead (255 + 1) State.reset = .error (.addressOutOfRange 256)) ∧
    (memRead 254 State.reset = .ok 0 ∧ memRead (254 + 1) State.reset = .ok 0 ∧
      memRead (254 + 2) State.reset = .error (.addressOutOfRange 256)) :=
  ⟨rfl, ⟨rfl, rfl⟩, rfl, rfl, rfl⟩
/-- The unrecognized clause of CycleFetchesDecodesChecksExecutes and FirstConditionMetIsReported, with operand bytes that
would be bad registers (V-F-6). -/
theorem witness_unrecognized_opcode :
    ∃ s : State, s.status = .running ∧ fetches s 0xE0 9 9 ∧ ∀ m, opcodeMap m ≠ 0xE0 :=
  ⟨start [0xE0, 9, 9], rfl, ⟨rfl, rfl, rfl⟩, by intro m; cases m <;> decide⟩
/-- The register-check clauses: the second register bad, the first at its bound. -/
theorem witness_CycleFetchesDecodesChecksExecutes_check :
    ∃ s : State, s.status = .running ∧ fetches s 0xA7 7 8 ∧ decodeWith opcodeMap ⟨0xA7, 7, 8⟩ = .ok (.cmp 7 8) ∧
      (Instr.cmp 7 8).regOperands.find? (fun x => decide (8 ≤ x.toNat)) = some 8 :=
  ⟨start [0xA7, 7, 8], rfl, ⟨rfl, rfl, rfl⟩, rfl, rfl⟩
theorem witness_CycleFetchesDecodesChecksExecutes_execute :
    ∃ s : State, s.status = .running ∧ fetches s 0xA7 7 7 ∧ decodeWith opcodeMap ⟨0xA7, 7, 7⟩ = .ok (.cmp 7 7) ∧
      (Instr.cmp 7 7).regOperands.find? (fun x => decide (8 ≤ x.toNat)) = none :=
  ⟨start [0xA7, 7, 7], rfl, ⟨rfl, rfl, rfl⟩, rfl, rfl⟩

theorem witness_FetchAtTheTopOfMemoryFaults :
    ∃ s : State, s.status = .running ∧ 254 ≤ s.pc ∧ ¬255 < s.pc := ⟨{ State.reset with pc := 254 }, rfl, by decide⟩
theorem witness_FetchAtTheTopOfMemoryFaults_above :
    ∃ s : State, s.status = .running ∧ 254 ≤ s.pc ∧ 255 < s.pc := ⟨{ State.reset with pc := 256 }, rfl, by decide⟩

theorem witness_BadRegisterFaultsArePrecise :
    8 ≤ (8 : Byte).toNat ∧ ((7 : Byte).toNat < 8 ∧ 8 ≤ (8 : Byte).toNat) := by decide

theorem witness_FirstConditionMetIsReported_first :
    ∃ s : State, s.status = .running ∧ fetches s 0xA7 9 8 ∧ opcodeMap .cmp = 0xA7 ∧
      formatOf .cmp ∈ [Format.R, .RR, .RI] ∧ 8 ≤ (9 : Byte).toNat :=
  ⟨start [0xA7, 9, 8], rfl, ⟨rfl, rfl, rfl⟩, rfl, by decide, by decide⟩
theorem witness_FirstConditionMetIsReported_second :
    ∃ s : State, s.status = .running ∧ fetches s 0xA7 7 8 ∧ opcodeMap .cmp = 0xA7 ∧ formatOf .cmp = .RR ∧
      (7 : Byte).toNat < 8 ∧ 8 ≤ (8 : Byte).toNat :=
  ⟨start [0xA7, 7, 8], rfl, ⟨rfl, rfl, rfl⟩, rfl, rfl, by decide, by decide⟩

/-- Two register operands at the bound: PcUpdateTable, MulAndAddWriteTheWrappedResult, IncAndDecWriteTheWrappedResult,
CmpSetsTheOutcomeFlag, LdiAndStUseWholeOperandBytes, LdLoadsRegisterIndirect, JumpsChangeOnlyTheProgramCounter,
PrnAndPraEmitTheRegister, LdiThenPrnEmitsTheImmediate, PushStoresBelowTheStackPointer, PopLoadsAtTheStackPointer,
PushThenPopRestoresTheRegister. -/
theorem witness_register_operands : (7 : Byte).toNat < 8 ∧ (0 : Byte).toNat < 8 := by decide

theorem witness_StoppedCoreKeepsItsState : { State.reset with status := .halted .hlt }.status ≠ .running := by decide

theorem witness_OnlyTheNamedConditionsEndARun :
    ∃ s t : State, s.status = .running ∧ step s = .next t ∧ t.status = .halted .hlt :=
  ⟨start [0x01], { start [0x01] with pc := 1, status := .halted .hlt }, rfl, rfl, rfl⟩
theorem witness_OnlyTheNamedConditionsEndARun_loop :
    ∃ s : State, s.status = .running ∧ fetches s (opcodeMap .jmp) 0 0 ∧ (s.reg 0).toNat = s.pc :=
  ⟨start [0x54, 0], rfl, ⟨rfl, rfl, rfl⟩, rfl⟩

theorem witness_PlacedWordIsExecuted : decodeTableWord 24 0x010282 = some (.ldi 2 1) := by rfl
theorem witness_PlacedWordIsExecuted_frame :
    ∃ s : State, s.status = .running ∧ s.pc = 253 ∧ (252 < s.pc ∨ s.pc + 2 < 252) :=
  ⟨{ State.reset with pc := 253 }, rfl, rfl, by decide⟩

/-- OnlyCmpWritesFlagsAndNothingReadsLessOrGreater, OnlyStPushAndCallWriteMemory, DataAccessesAreNeverOutOfRange: an
instruction that answers a next state, running before, with all flags true. -/
theorem witness_executed_instruction :
    ∃ s t : State, s.status = .running ∧ s.flags = ⟨true, true, true⟩ ∧ exec (.jmp 0) s = .next t ∧
      mnemonicOf (.jmp 0) ≠ .cmp ∧ mnemonicOf (.jmp 0) ∉ [.st, .push, .call] :=
  ⟨State.reset.setFlags ⟨true, true, true⟩, State.reset.setFlags ⟨true, true, true⟩, rfl, rfl, rfl, by decide⟩

/-- NoRunClearsAFlag: one step from a state with all flags true. -/
theorem witness_NoRunClearsAFlag :
    ∃ s t : State, Sys2Proof.core.run 1 s = .next t ∧ s.flags = ⟨true, true, true⟩ :=
  ⟨(start [0x54, 0]).setFlags ⟨true, true, true⟩, (start [0x54, 0]).setFlags ⟨true, true, true⟩, rfl, rfl⟩

theorem witness_CallPushesTheReturnAddress : ∃ s : State, s.pc ≤ 253 ∧ s.pc = 253 ∧ (7 : Byte).toNat < 8 :=
  ⟨{ State.reset with pc := 253 }, by decide⟩

/-- RetReturnsPastItsCall: the state a CALL leaves is itself a later state with its SP and byte. -/
theorem witness_RetReturnsPastItsCall :
    ∃ s t : State, s.pc ≤ 253 ∧ exec (.call 0) s = .next t ∧ (0 : Byte).toNat < 8 :=
  ⟨State.reset, _, by decide, exec_call _ (by decide), by decide⟩

/-- OutputStreamOnlyGrows, EveryStepKeepsTheInvariant: a step from a state that meets the invariant and emits. -/
theorem witness_EveryStepKeepsTheInvariant : ∃ s t : State, Inv s ∧ step s = .next t ∧ t.out = [.outDec 0xF4] :=
  ⟨start [0x47, 7], advance 2 (emit (.outDec 0xF4) (start [0x47, 7])), ⟨by decide, by decide, trivial⟩, rfl, rfl⟩

theorem witness_ImageLoadFillsMemoryFromZero : (List.replicate 256 (0x01 : Byte)).length ≤ 256 := by
  rw [List.length_replicate]
theorem witness_RunsStartAtAddressZero :
    ∃ s, boot [0x01] = some s ∧ decode ⟨[0x01].getD 0 0, [0x01].getD 1 0, [0x01].getD 2 0⟩ = .ok .hlt :=
  ⟨_, rfl, rfl⟩
theorem witness_RunsStartAtAddressZero_too_long : 256 < (List.replicate 257 (0x01 : Byte)).length := by
  rw [List.length_replicate]; decide

/-- RegistersNotNamedAreNeitherReadNorWritten: INC of R0 names neither R5 nor SP, and changes R0. -/
theorem witness_RegistersNotNamedAreNeitherReadNorWritten :
    (∃ t, exec (.inc 0) State.reset = .next t ∧ t.reg 0 ≠ State.reset.reg 0) ∧
    (∀ b ∈ (Instr.inc 0).regOperands, b.toNat ≠ (Config.imIndex).val) ∧
    ¬(Config.imIndex = SP ∧ mnemonicOf (.inc 0) ∈ [.push, .pop, .call, .ret]) :=
  ⟨⟨_, exec_inc _ (by decide), by decide⟩, by decide, by decide⟩

/-- WritesReachLaterFetchesOnly: a ST over its own first operand byte (R96's example), and the fetch after it. -/
theorem witness_WritesReachLaterFetchesOnly :
    ∃ s t : State, s.status = .running ∧ fetches s (opcodeMap .st) 0x04 0x09 ∧
      decode ⟨opcodeMap .st, 0x04, 0x09⟩ = .ok (.st 0x04 0x09) ∧ step s = .next t ∧
      memRead 4 t = .ok 0x09 ∧ ∃ l, fetch { t with pc := 4 } = .ok l ∧ l.opcode = 0x09 :=
  ⟨{ start [0, 0, 0, 0x84, 4, 9] with pc := 3 }, _, rfl, ⟨rfl, rfl, rfl⟩, rfl, rfl, rfl, _, rfl, rfl⟩

theorem witness_ReadsReturnTheMostRecentWrite : ∃ s, boot [0x82, 0x00] = some s := ⟨_, rfl⟩

/-- The same two cells written in either order. -/
theorem witness_CanonicalMemoryIsItsContents :
    ∃ m n : Memory, m = (Memory.set [] 0 0x82).set 255 0x01 ∧ n = (Memory.set [] 255 0x01).set 0 0x82 ∧ m.wf ∧ n.wf ∧
      ∀ x, x < 256 → m.get x = n.get x :=
  ⟨[(0, 0x82), (255, 0x01)], [(0, 0x82), (255, 0x01)], by decide, by decide, by decide, by decide, fun _ _ => rfl⟩

end Sys2Proof.Tests
end

section
/-! PROOFS. What executing an instruction can do, said once: it completes in one of eighteen ways, or the first bad
register operand faults (R72, R109). The proofs of the statements about the state are case analyses of this. -/

namespace Sys2Proof.Machine

/-- The first register operand that names no register, in the order of R72. -/
abbrev firstBadRegister (i : Instr) : Option Byte := i.regOperands.find? fun x => decide (8 ≤ x.toNat)

/-- The completed executions from `s`: every register operand names a register, and the state is the one that the
equations of Laws/Exec give. -/
inductive Completes (s : State) : Instr → State → Prop
  | hlt : Completes s .hlt (halt .hlt (advance 1 s))
  | ldi {a : Byte} (imm : Byte) (ha : a.toNat < 8) :
    Completes s (.ldi a imm) (advance 3 (s.setReg ⟨a.toNat, ha⟩ imm))
  | prn {a : Byte} (ha : a.toNat < 8) :
    Completes s (.prn a) (advance 2 (emit (.outDec (s.reg ⟨a.toNat, ha⟩)) s))
  | pra {a : Byte} (ha : a.toNat < 8) :
    Completes s (.pra a) (advance 2 (emit (.outChar (s.reg ⟨a.toNat, ha⟩)) s))
  | mul {a b : Byte} (ha : a.toNat < 8) (hb : b.toNat < 8) :
    Completes s (.mul a b)
      (advance 3 (s.setReg ⟨a.toNat, ha⟩ (alu .mul (s.reg ⟨a.toNat, ha⟩) (s.reg ⟨b.toNat, hb⟩))))
  | add {a b : Byte} (ha : a.toNat < 8) (hb : b.toNat < 8) :
    Completes s (.add a b)
      (advance 3 (s.setReg ⟨a.toNat, ha⟩ (alu .add (s.reg ⟨a.toNat, ha⟩) (s.reg ⟨b.toNat, hb⟩))))
  | inc {a : Byte} (ha : a.toNat < 8) :
    Completes s (.inc a) (advance 2 (s.setReg ⟨a.toNat, ha⟩ (alu .inc (s.reg ⟨a.toNat, ha⟩) 0)))
  | dec {a : Byte} (ha : a.toNat < 8) :
    Completes s (.dec a) (advance 2 (s.setReg ⟨a.toNat, ha⟩ (alu .dec (s.reg ⟨a.toNat, ha⟩) 0)))
  | push {a : Byte} (ha : a.toNat < 8) :
    Completes s (.push a) (advance 2
      ((decSP s).setMem (s.mem.set ((decSP s).reg SP).toNat ((decSP s).reg ⟨a.toNat, ha⟩))))
  | pop {a : Byte} (ha : a.toNat < 8) :
    Completes s (.pop a) (advance 2 (incSP (s.setReg ⟨a.toNat, ha⟩ (s.mem.get (s.reg SP).toNat))))
  | call {a : Byte} (ha : a.toNat < 8) :
    Completes s (.call a) (jumpTo ((decSP s).reg ⟨a.toNat, ha⟩)
      ((decSP s).setMem (s.mem.set ((decSP s).reg SP).toNat (returnAddress s))))
  | ret : Completes s .ret (incSP (jumpTo (s.mem.get (s.reg SP).toNat) s))
  | cmp {a b : Byte} (ha : a.toNat < 8) (hb : b.toNat < 8) :
    Completes s (.cmp a b)
      (advance 3 (s.setFlags (compareFlags (s.reg ⟨a.toNat, ha⟩) (s.reg ⟨b.toNat, hb⟩) s.flags)))
  | jeq {a : Byte} (ha : a.toNat < 8) :
    Completes s (.jeq a) (if s.flags.E then jumpTo (s.reg ⟨a.toNat, ha⟩) s else advance 2 s)
  | jne {a : Byte} (ha : a.toNat < 8) :
    Completes s (.jne a) (if s.flags.E then advance 2 s else jumpTo (s.reg ⟨a.toNat, ha⟩) s)
  | jmp {a : Byte} (ha : a.toNat < 8) : Completes s (.jmp a) (jumpTo (s.reg ⟨a.toNat, ha⟩) s)
  | ld {a b : Byte} (ha : a.toNat < 8) (hb : b.toNat < 8) :
    Completes s (.ld a b) (advance 3 (s.setReg ⟨a.toNat, ha⟩ (s.mem.get (s.reg ⟨b.toNat, hb⟩).toNat)))
  | st (addr imm : Byte) : Completes s (.st addr imm) (advance 3 (s.setMem (s.mem.set addr.toNat imm)))

variable {i : Instr} {s t : State}

/-- A completed execution is what `exec` answers. -/
theorem Completes.exec_eq (h : Completes s i t) : exec i s = .next t := by
  cases h with
  | hlt => exact exec_hlt s
  | ldi imm ha => exact exec_ldi s imm ha
  | prn ha => exact exec_prn s ha
  | pra ha => exact exec_pra s ha
  | mul ha hb => exact exec_mul s ha hb
  | add ha hb => exact exec_add s ha hb
  | inc ha => exact exec_inc s ha
  | dec ha => exact exec_dec s ha
  | push ha => exact exec_push s ha
  | pop ha => exact exec_pop s ha
  | call ha => exact exec_call s ha
  | ret => exact exec_ret s
  | cmp ha hb => exact exec_cmp s ha hb
  | jeq ha => exact exec_jeq s ha
  | jne ha => exact exec_jne s ha
  | jmp ha => exact exec_jmp s ha
  | ld ha hb => exact exec_ld s ha hb
  | st addr imm => exact exec_st s addr imm

/-- An instruction whose register operands all name registers completes. -/
theorem exists_completes_of_regOperands_lt (s : State) (h : ∀ x ∈ i.regOperands, x.toNat < 8) :
    ∃ t, Completes s i t := by
  cases i with
  | hlt => exact ⟨_, .hlt⟩
  | ldi a imm => exact ⟨_, .ldi imm (h a (.head _))⟩
  | prn a => exact ⟨_, .prn (h a (.head _))⟩
  | pra a => exact ⟨_, .pra (h a (.head _))⟩
  | mul a b => exact ⟨_, .mul (h a (.head _)) (h b (.tail _ (.head _)))⟩
  | add a b => exact ⟨_, .add (h a (.head _)) (h b (.tail _ (.head _)))⟩
  | inc a => exact ⟨_, .inc (h a (.head _))⟩
  | dec a => exact ⟨_, .dec (h a (.head _))⟩
  | push a => exact ⟨_, .push (h a (.head _))⟩
  | pop a => exact ⟨_, .pop (h a (.head _))⟩
  | call a => exact ⟨_, .call (h a (.head _))⟩
  | ret => exact ⟨_, .ret⟩
  | cmp a b => exact ⟨_, .cmp (h a (.head _)) (h b (.tail _ (.head _)))⟩
  | jeq a => exact ⟨_, .jeq (h a (.head _))⟩
  | jne a => exact ⟨_, .jne (h a (.head _))⟩
  | jmp a => exact ⟨_, .jmp (h a (.head _))⟩
  | ld a b => exact ⟨_, .ld (h a (.head _)) (h b (.tail _ (.head _)))⟩
  | st addr imm => exact ⟨_, .st addr imm⟩

/-- A body that checks one register operand faults where that operand is bad. -/
theorem check_bad {a c : Byte} {f : RegIndex → Except Fault State}
    (h : [a].find? (fun x => decide (8 ≤ x.toNat)) = some c) :
    (do let ra ← regIndex a; f ra) = .error (.badRegister c) := by
  obtain ⟨ha, rfl⟩ : 8 ≤ a.toNat ∧ a = c := by simpa using h
  rw [regIndex_bad a ha, error_bind]

/-- A body that checks two register operands in order faults with the first bad one. -/
theorem check_two_bad {a b c : Byte} {f : RegIndex → RegIndex → Except Fault State}
    (h : [a, b].find? (fun x => decide (8 ≤ x.toNat)) = some c) :
    (do let ra ← regIndex a; let rb ← regIndex b; f ra rb) = .error (.badRegister c) := by
  rcases regIndex_cases a with ⟨ha, hra⟩ | ⟨ha, -⟩
  · rw [hra, ok_bind]
    rw [List.find?_cons_of_neg (by simpa using ha)] at h
    exact check_bad h
  · rw [List.find?_cons_of_pos (by simpa using ha)] at h
    exact check_bad (f := fun ra => regIndex b >>= f ra) (by simpa [ha] using h)

/-- The first bad register operand is the fault that an execution takes, whatever the state (R72, R109). -/
theorem exec_of_firstBadRegister (s : State) {x : Byte} (h : firstBadRegister i = some x) :
    exec i s = .next (takeFault (.badRegister x) s) := by
  cases i with
  | hlt | ret | st => cases h
  | ldi | prn | pra | inc | dec | push | pop | call | jeq | jne | jmp => exact congrArg (perform s) (check_bad h)
  | mul | add | cmp | ld => exact congrArg (perform s) (check_two_bad h)

/-- Everything `exec` can do: complete, or take the fault of the first bad register operand. -/
theorem exec_cases (i : Instr) (s : State) :
    (∃ t, Completes s i t ∧ exec i s = .next t) ∨
    (∃ x, firstBadRegister i = some x ∧ exec i s = .next (takeFault (.badRegister x) s)) := by
  cases h : firstBadRegister i with
  | none =>
    obtain ⟨t, ht⟩ := exists_completes_of_regOperands_lt (i := i) s (by simpa using h)
    exact .inl ⟨t, ht, ht.exec_eq⟩
  | some x => exact .inr ⟨x, rfl, exec_of_firstBadRegister s h⟩

/-- What a next state that `exec` answered can be. -/
theorem completes_or_fault_of_exec (h : exec i s = .next t) :
    Completes s i t ∨ ∃ x, firstBadRegister i = some x ∧ t = takeFault (.badRegister x) s := by
  rcases exec_cases i s with ⟨u, hc, hu⟩ | ⟨x, hx, hu⟩
  · cases h.symm.trans hu
    exact .inl hc
  · cases h.symm.trans hu
    exact .inr ⟨x, hx, rfl⟩

/-- The bad register operand a fault names is a register operand of the instruction, of 8 or more. -/
theorem firstBadRegister_some {x : Byte} (h : firstBadRegister i = some x) : x ∈ i.regOperands ∧ 8 ≤ x.toNat :=
  ⟨List.mem_of_find?_eq_some h, by simpa using List.find?_some h⟩

end Sys2Proof.Machine
end

section
/-! PROOFS. What a step of the core can do, with the fetched bytes written out. -/

namespace Sys2Proof.Machine

variable {i : Instr} {s t : State}

/-- What a next state that `step` answered can be: the state of a stopped core, a fetch fault, the report of an
unrecognized opcode, or what the fetched instruction left. -/
theorem step_next_cases (h : step s = .next t) :
    (s.status ≠ .running ∧ t = s) ∨
    (s.status = .running ∧ 254 ≤ s.pc ∧
      t = takeFault (.addressOutOfRange (if 255 < s.pc then s.pc else 256)) s) ∨
    (s.status = .running ∧ s.pc ≤ 253 ∧ (∀ m, opcodeMap m ≠ s.mem.get s.pc) ∧
      t = reportUnrecognized (s.mem.get s.pc) s) ∨
    (s.status = .running ∧ s.pc ≤ 253 ∧ ∃ m, opcodeMap m = s.mem.get s.pc ∧
      exec (buildInstr m (s.mem.get (s.pc + 1)) (s.mem.get (s.pc + 2))) s = .next t) := by
  change cycle opcodeMap s = .next t at h
  rcases cycle_cases opcodeMap s with
    ⟨hs, he⟩ | ⟨hs, r, hf, he⟩ | ⟨hs, l, hf, hn, he⟩ | ⟨hs, l, m, hf, hm, he⟩ <;> rw [he] at h
  · cases h
    exact .inl ⟨hs, rfl⟩
  · cases h
    rcases fetch_cases s with ⟨-, hok⟩ | ⟨hpc, hbad⟩
    · cases hf.symm.trans hok
    · cases hf.symm.trans hbad
      exact .inr (.inl ⟨hs, hpc, rfl⟩)
  · cases h
    rcases fetch_cases s with ⟨hpc, hok⟩ | ⟨-, hbad⟩
    · cases hf.symm.trans hok
      exact .inr (.inr (.inl ⟨hs, hpc, hn, rfl⟩))
    · cases hf.symm.trans hbad
  · rcases fetch_cases s with ⟨hpc, hok⟩ | ⟨-, hbad⟩
    · cases hf.symm.trans hok
      exact .inr (.inr (.inr ⟨hs, hpc, m, hm, h⟩))
    · cases hf.symm.trans hbad

/-- A register operand of a built instruction is one of the two operand bytes. -/
theorem mem_regOperands_buildInstr {m : Mnemonic} {a b x : Byte} (h : x ∈ (buildInstr m a b).regOperands) :
    x = a ∨ x = b := by
  cases m with
  | hlt | ret | st => cases h
  | ldi | prn | pra | inc | dec | push | pop | call | jeq | jne | jmp => exact .inl (List.mem_singleton.1 h)
  | mul | add | cmp | ld => simpa [buildInstr, Instr.regOperands] using h

/-! ## What a completed execution leaves unchanged -/

/-- Memory changes by one byte at a byte address, or not at all (R34). -/
theorem Completes.mem_cases (h : Completes s i t) :
    t.mem = s.mem ∨ ∃ x v : Byte, t.mem = s.mem.set x.toNat v := by
  cases h with
  | push | call | st => exact .inr ⟨_, _, rfl⟩
  | jeq | jne => left; split <;> rfl
  | _ => exact .inl rfl

/-- The pc moves on by at most three or is a byte (R73). -/
theorem Completes.pc_cases (h : Completes s i t) : t.pc ≤ s.pc + 3 ∨ ∃ v : Byte, t.pc = v.toNat := by
  cases h with
  | call | ret | jmp => exact .inr ⟨_, rfl⟩
  | jeq =>
    split
    · exact .inr ⟨_, rfl⟩
    · exact .inl (Nat.add_le_add_left (by decide) _)
  | jne =>
    split
    · exact .inl (Nat.add_le_add_left (by decide) _)
    · exact .inr ⟨_, rfl⟩
  | _ => exact .inl (Nat.add_le_add_left (by decide) _)

/-- Only HLT changes the status (R102). -/
theorem Completes.status_cases (h : Completes s i t) :
    t.status = s.status ∨ (mnemonicOf i = .hlt ∧ t = halt .hlt (advance 1 s)) := by
  cases h with
  | hlt => exact .inr ⟨rfl, rfl⟩
  | jeq | jne => left; split <;> rfl
  | _ => exact .inl rfl

/-- Only PRN and PRA add to the output, one event each (R103, R104). -/
theorem Completes.out_cases (h : Completes s i t) :
    t.out = s.out ∨
    (mnemonicOf i = .prn ∧ ∃ r, t.out = s.out ++ [.outDec (s.reg r)]) ∨
    (mnemonicOf i = .pra ∧ ∃ r, t.out = s.out ++ [.outChar (s.reg r)]) := by
  cases h with
  | prn => exact .inr (.inl ⟨rfl, _, rfl⟩)
  | pra => exact .inr (.inr ⟨rfl, _, rfl⟩)
  | jeq | jne => left; split <;> rfl
  | _ => exact .inl rfl

/-- Only CMP writes the flags (R23). -/
theorem Completes.flags_cases (h : Completes s i t) :
    t.flags = s.flags ∨ (mnemonicOf i = .cmp ∧ ∃ va vb, t.flags = compareFlags va vb s.flags) := by
  cases h with
  | cmp => exact .inr ⟨rfl, _, _, rfl⟩
  | jeq | jne => left; split <;> rfl
  | _ => exact .inl rfl

end Sys2Proof.Machine
end

section
/-! PROOFS. The invariant of the core: its base case and its step. -/

namespace Sys2Proof.Machine

variable {i : Instr} {s t : State}

theorem statusJustified_of_running (h : s.status = .running) : statusJustified s := by
  simp [statusJustified, h]

theorem Completes.mem_wf (h : Completes s i t) (hwf : s.mem.wf) : t.mem.wf := by
  rcases h.mem_cases with hm | ⟨x, v, hm⟩ <;> rw [hm]
  · exact hwf
  · exact set_wf s.mem x.toNat v hwf x.isLt

/-- An execution at a pc of at most 253 leaves a pc of at most 256 (R21). -/
theorem Completes.pc_le (h : Completes s i t) (hpc : s.pc ≤ 253) : t.pc ≤ 256 := by
  rcases h.pc_cases with hle | ⟨v, hv⟩
  · omega
  · have := v.isLt
    omega

/-- An instruction at the pc that completes keeps the invariant. -/
theorem Completes.inv (h : Completes s i t) (hs : s.status = .running) (hpc : s.pc ≤ 253)
    (hop : opcodeMap (mnemonicOf i) = s.mem.get s.pc) (hwf : s.mem.wf) : Inv t where
  memory := h.mem_wf hwf
  pc_le := h.pc_le hpc
  status := by
    rcases h.status_cases with hst | ⟨hi, rfl⟩
    · exact statusJustified_of_running (hst.trans hs)
    · refine ⟨Nat.le_add_left 1 s.pc, Nat.succ_le_succ hpc, ?_⟩
      change memRead (s.pc + 1 - 1) s = .ok (opcodeMap .hlt)
      rw [Nat.add_sub_cancel, memRead_ok s (by omega), ← hop, hi]

/-- A bad register operand among the fetched operand bytes justifies its fault (R72). -/
theorem badRegister_inv (h : Inv s) (hpc : s.pc ≤ 253) {x : Byte} (hx : 8 ≤ x.toNat)
    (hmem : x = s.mem.get (s.pc + 1) ∨ x = s.mem.get (s.pc + 2)) : Inv (takeFault (.badRegister x) s) where
  memory := h.memory
  pc_le := h.pc_le
  status := by
    have hread (k : Nat) (hk : k ≤ 2) : memRead (s.pc + k) s = .ok (s.mem.get (s.pc + k)) := memRead_ok s (by omega)
    refine ⟨hx, hmem.imp (fun e => ?_) fun e => ?_⟩
    · exact e.symm ▸ hread 1 (by decide)
    · exact e.symm ▸ hread 2 (by decide)

/-- Under the invariant a fetch that faults records address 256 (R111 with R21). -/
theorem fetchFault_inv (h : Inv s) (hpc : 254 ≤ s.pc) :
    Inv (takeFault (.addressOutOfRange (if 255 < s.pc then s.pc else 256)) s) where
  memory := h.memory
  pc_le := h.pc_le
  status := by
    have := h.pc_le
    refine ⟨?_, hpc⟩
    split <;> omega

/-- The report of an opcode byte without a row stands at that byte (R70). -/
theorem reportUnrecognized_inv (h : Inv s) (hpc : s.pc ≤ 253) (hn : ∀ m, opcodeMap m ≠ s.mem.get s.pc) :
    Inv (reportUnrecognized (s.mem.get s.pc) s) where
  memory := h.memory
  pc_le := h.pc_le
  status := ⟨memRead_ok s (show s.pc < 256 by omega), lookupOpcode_none.2 hn, List.getLast?_concat⟩

/-- Settles O42, by what a step can do: each way it can end has its own invariant lemma. -/
theorem everyStepKeepsTheInvariant : Obligations.EveryStepKeepsTheInvariant := by
  intro s t hinv hstep
  rcases step_next_cases hstep with
    ⟨-, rfl⟩ | ⟨-, hpc, rfl⟩ | ⟨-, hpc, hn, rfl⟩ | ⟨hs, hpc, m, hm, hexec⟩
  · exact hinv
  · exact fetchFault_inv hinv hpc
  · exact reportUnrecognized_inv hinv hpc hn
  · rcases completes_or_fault_of_exec hexec with hc | ⟨x, hx, rfl⟩
    · exact hc.inv hs hpc (by rw [mnemonicOf_buildInstr, hm]) hinv.memory
    · obtain ⟨hmem, h8⟩ := firstBadRegister_some hx
      exact badRegister_inv hinv hpc h8 (mem_regOperands_buildInstr hmem)

/-- What a load from reset gives: an image that fits, in a memory that held nothing (R127). -/
theorem boot_eq_some {img : List Byte} (h : boot img = some s) :
    img.length ≤ Config.memSize ∧ s = State.reset.setMem (storeBytes 0 img []) := by
  obtain ⟨hlen, hs⟩ := Option.ite_none_right_eq_some.1 h
  exact ⟨hlen, (Option.some.inj hs).symm⟩

/-- Settles O41: reset lists no memory cell, and a load stores inside the 256 cells. -/
theorem invariantHoldsAfterResetAndLoad : Obligations.InvariantHoldsAfterResetAndLoad := by
  refine ⟨⟨nil_wf, Nat.zero_le _, trivial⟩, fun img s h => ?_⟩
  obtain ⟨hlen, rfl⟩ := boot_eq_some h
  exact ⟨storeBytes_wf img 0 [] nil_wf (by omega), Nat.zero_le _, trivial⟩

/-- Settles O38: the fields of the reset state, with every cell unlisted. -/
theorem resetLeavesTheSpecifiedState : Obligations.ResetLeavesTheSpecifiedState := by
  have hregs : ∀ r : RegIndex, r ≠ 7 → State.reset.reg r = 0x00 := by decide
  exact ⟨rfl, rfl, hregs, rfl, fun x hx => memRead_ok State.reset hx, rfl, rfl⟩

end Sys2Proof.Machine
end

section
/-! PROOFS. Steps always answer, and what they add to the output. -/

namespace Sys2Proof.Machine

/-- `exec` answers a next state for every instruction. -/
theorem exec_answers (i : Instr) (s : State) : ∃ t, exec i s = .next t := by
  rcases exec_cases i s with ⟨t, -, ht⟩ | ⟨_, -, ht⟩ <;> exact ⟨_, ht⟩

/-- Settles O16, by what a step can be: each answer is a next state, `exec`'s by `exec_answers`. -/
theorem everyStepAnswersANextState : Obligations.EveryStepAnswersANextState := by
  intro s
  change ∃ t, cycle opcodeMap s = .next t
  rcases cycle_cases opcodeMap s with
    ⟨-, h⟩ | ⟨-, _, -, h⟩ | ⟨-, _, -, -, h⟩ | ⟨-, l, m, -, -, h⟩
  · exact ⟨_, h⟩
  · exact ⟨_, h⟩
  · exact ⟨_, h⟩
  · exact h ▸ exec_answers (buildInstr m l.a l.b) s

/-- Settles O37, by what a step can do: a stopped core and a fault add nothing, the report adds one event, and a
completed instruction adds one only if it is PRN or PRA. -/
theorem outputStreamOnlyGrows : Obligations.OutputStreamOnlyGrows := by
  intro s t hstep
  rcases step_next_cases hstep with
    ⟨-, rfl⟩ | ⟨-, -, rfl⟩ | ⟨-, hpc, hn, rfl⟩ | ⟨-, hpc, m, hm, hexec⟩
  · exact .inl rfl
  · exact .inl rfl
  · exact .inr ⟨_, memRead_ok s (by omega), .inr (.inr ⟨hn, rfl⟩)⟩
  · have hread := memRead_ok s (show s.pc < 256 by omega)
    rcases completes_or_fault_of_exec hexec with hc | ⟨x, -, rfl⟩
    · rcases hc.out_cases with hout | ⟨hi, hout⟩ | ⟨hi, hout⟩
      · exact .inl hout
      · rw [mnemonicOf_buildInstr] at hi
        exact .inr ⟨_, hread, .inl ⟨hi ▸ hm.symm, hout⟩⟩
      · rw [mnemonicOf_buildInstr] at hi
        exact .inr ⟨_, hread, .inr (.inl ⟨hi ▸ hm.symm, hout⟩)⟩
    · exact .inl rfl

end Sys2Proof.Machine
end

section
/-! PROOFS. The flags: who writes them and who reads them (R23). -/

namespace Sys2Proof.Machine

variable {i : Instr} {s t : State}

/-- An execution leaves the flags or is a CMP, which computes them. -/
theorem exec_flags_cases (h : exec i s = .next t) :
    t.flags = s.flags ∨ (mnemonicOf i = .cmp ∧ ∃ va vb, t.flags = compareFlags va vb s.flags) := by
  rcases completes_or_fault_of_exec h with hc | ⟨x, -, rfl⟩
  · exact hc.flags_cases
  · exact .inl rfl

/-- No execution clears a flag (R84). -/
theorem exec_keeps_true_flags (h : exec i s = .next t) :
    (s.flags.E = true → t.flags.E = true) ∧ (s.flags.L = true → t.flags.L = true) ∧
      (s.flags.G = true → t.flags.G = true) := by
  rcases exec_flags_cases h with hf | ⟨-, va, vb, hf⟩
  · simp [hf]
  · simp +contextual [hf, compareFlags_eq]

/-- With other values of Less and Greater an instruction completes in the same way, up to these two flags. -/
theorem Completes.setFlags_L_G (h : Completes s i t) (l g : Bool) :
    ∃ f : Flags, f.E = t.flags.E ∧ Completes (s.setFlags ⟨s.flags.E, l, g⟩) i (t.setFlags f) := by
  cases h with
  | cmp ha hb => exact ⟨_, by simp [compareFlags_eq], .cmp ha hb⟩
  | jeq ha =>
    refine ⟨⟨s.flags.E, l, g⟩, by split <;> rfl, ?_⟩
    rw [apply_ite (State.setFlags _)]
    exact .jeq ha
  | jne ha =>
    refine ⟨⟨s.flags.E, l, g⟩, by split <;> rfl, ?_⟩
    rw [apply_ite (State.setFlags _)]
    exact .jne ha
  | _ => exact ⟨⟨s.flags.E, l, g⟩, rfl, by constructor⟩

/-- No instruction reads Less or Greater. -/
theorem exec_setFlags_L_G (h : exec i s = .next t) (l g : Bool) :
    ∃ f : Flags, f.E = t.flags.E ∧ exec i (s.setFlags ⟨s.flags.E, l, g⟩) = .next (t.setFlags f) := by
  rcases completes_or_fault_of_exec h with hc | ⟨x, hx, rfl⟩
  · obtain ⟨f, hf, hc'⟩ := hc.setFlags_L_G l g
    exact ⟨f, hf, hc'.exec_eq⟩
  · exact ⟨⟨s.flags.E, l, g⟩, rfl, exec_of_firstBadRegister _ hx⟩

/-- Settles O23: the equations of JEQ and JNE, and what an execution can do to the flags and read of them. -/
theorem onlyCmpWritesFlagsAndNothingReadsLessOrGreater :
    Obligations.OnlyCmpWritesFlagsAndNothingReadsLessOrGreater := by
  refine ⟨rfl, fun s a ha => ⟨?_, ?_⟩, fun i s t h => ?_⟩
  · rw [exec_jeq s ha]
    split <;> rfl
  · rw [exec_jne s ha]
    split <;> rfl
  · obtain ⟨hE, hL, hG⟩ := exec_keeps_true_flags h
    refine ⟨fun hne => ?_, hE, hL, hG, fun l g => ?_⟩
    · exact (exec_flags_cases h).resolve_right fun hcmp => hne hcmp.1
    · obtain ⟨f, hf, hexec⟩ := exec_setFlags_L_G h l g
      exact ⟨_, hexec, rfl, rfl, hf, rfl, rfl, rfl⟩

end Sys2Proof.Machine
end

section
/-! PROOFS. The registers: who writes them and who reads them (R18, R20). -/

namespace Sys2Proof.Machine

variable {i : Instr} {s t : State} {q r : RegIndex}

/-- A register write changes no register but its own. -/
theorem eq_of_setReg_reg_ne {v : Byte} (h : (s.setReg q v).reg r ≠ s.reg r) : q = r :=
  of_not_not fun hne => h (setReg_reg_ne s v (Ne.symm hne))

/-- Writes to two different registers commute. -/
theorem setReg_comm (s : State) (v w : Byte) (h : q ≠ r) :
    (s.setReg r v).setReg q w = (s.setReg q w).setReg r v := by
  simp only [State.setReg, Vector.set_comm v w (fun e => h (Fin.ext e.symm))]

theorem advance_setReg_comm (n : Nat) (s : State) (v w : Byte) (h : q ≠ r) :
    (advance n (s.setReg q w)).setReg r v = advance n ((s.setReg r v).setReg q w) :=
  congrArg (advance n) (setReg_comm s v w h).symm

theorem decSP_setReg (s : State) (v : Byte) (h : r ≠ SP) : decSP (s.setReg r v) = (decSP s).setReg r v := by
  rw [decSP, setReg_reg_ne s v h.symm, setReg_comm s v _ h.symm, decSP]

theorem incSP_setReg (s : State) (v : Byte) (h : r ≠ SP) : incSP (s.setReg r v) = (incSP s).setReg r v := by
  rw [incSP, setReg_reg_ne s v h.symm, setReg_comm s v _ h.symm, incSP]

/-- R18's table: a completed execution changes a register only if it is the written operand or the stack pointer. -/
theorem Completes.reg_changed (h : Completes s i t) (hr : t.reg r ≠ s.reg r) :
    (mnemonicOf i ∈ [.ldi, .ld, .pop, .add, .mul, .inc, .dec] ∧ ∃ a ∈ (operandBytes i).head?, a.toNat = r.val) ∨
      (mnemonicOf i ∈ [.push, .pop, .call, .ret] ∧ r = SP) := by
  cases h with
  | ldi | mul | add | inc | dec | ld =>
    have hq := congrArg Fin.val (eq_of_setReg_reg_ne hr)
    exact .inl ⟨by simp [mnemonicOf], _, rfl, hq⟩
  | push | call | ret =>
    exact .inr ⟨by simp [mnemonicOf], (eq_of_setReg_reg_ne hr).symm⟩
  | pop ha =>
    by_cases hsp : r = SP
    · exact .inr ⟨by simp [mnemonicOf], hsp⟩
    · rw [advance_reg, incSP_reg_ne _ hsp] at hr
      have hq := congrArg Fin.val (eq_of_setReg_reg_ne hr)
      exact .inl ⟨by simp [mnemonicOf], _, rfl, hq⟩
  | jeq | jne => exact absurd (by split <;> rfl) hr
  | hlt | prn | pra | cmp | jmp | st => exact absurd rfl hr

/-- An instruction that does not name a register and does not use it as the stack pointer completes in the same way
with another value there. -/
theorem Completes.setReg (h : Completes s i t) (v : Byte) (hop : ∀ b ∈ i.regOperands, b.toNat ≠ r.val)
    (hsp : ¬(r = SP ∧ mnemonicOf i ∈ [.push, .pop, .call, .ret])) : Completes (s.setReg r v) i (t.setReg r v) := by
  have hne {x : Byte} (hx : x ∈ i.regOperands) (hlt : x.toNat < 8) : (⟨x.toNat, hlt⟩ : RegIndex) ≠ r :=
    fun e => hop x hx (congrArg Fin.val e)
  have hSP (hm : mnemonicOf i ∈ [.push, .pop, .call, .ret]) : r ≠ SP := fun e => hsp ⟨e, hm⟩
  cases h with
  | hlt => exact .hlt
  | st addr imm => exact .st addr imm
  | ldi imm ha =>
    rw [advance_setReg_comm 3 s v _ (hne (.head _) ha)]
    exact .ldi imm ha
  | prn ha | pra ha | jmp ha =>
    rw [← setReg_reg_ne s v (hne (.head _) ha)]
    constructor
  | inc ha | dec ha =>
    rw [advance_setReg_comm 2 s v _ (hne (.head _) ha), ← setReg_reg_ne s v (hne (.head _) ha)]
    constructor
  | mul ha hb | add ha hb =>
    rw [advance_setReg_comm 3 s v _ (hne (.head _) ha), ← setReg_reg_ne s v (hne (.head _) ha),
      ← setReg_reg_ne s v (hne (.tail _ (.head _)) hb)]
    constructor
  | cmp ha hb =>
    rw [← setReg_reg_ne s v (hne (.head _) ha), ← setReg_reg_ne s v (hne (.tail _ (.head _)) hb)]
    exact .cmp ha hb
  | ld ha hb =>
    rw [advance_setReg_comm 3 s v _ (hne (.head _) ha), ← setReg_reg_ne s v (hne (.tail _ (.head _)) hb)]
    exact .ld ha hb
  | jeq ha | jne ha =>
    rw [apply_ite (State.setReg r v), ← setReg_reg_ne s v (hne (.head _) ha)]
    constructor
  | push ha =>
    have hr := hSP (by simp [mnemonicOf])
    have hc := Completes.push (s := s.setReg r v) ha
    rwa [decSP_setReg s v hr, setReg_reg_ne _ v hr.symm, setReg_reg_ne _ v (hne (.head _) ha)] at hc
  | call ha =>
    have hr := hSP (by simp [mnemonicOf])
    have hc := Completes.call (s := s.setReg r v) ha
    rwa [decSP_setReg s v hr, setReg_reg_ne _ v hr.symm, setReg_reg_ne _ v (hne (.head _) ha)] at hc
  | pop ha =>
    have hr := hSP (by simp [mnemonicOf])
    have hc := Completes.pop (s := s.setReg r v) ha
    rwa [setReg_reg_ne s v hr.symm, setReg_comm s v _ (hne (.head _) ha), incSP_setReg _ v hr] at hc
  | ret =>
    have hr := hSP (by simp [mnemonicOf])
    have hc := Completes.ret (s := s.setReg r v)
    rw [setReg_reg_ne s v hr.symm] at hc
    exact incSP_setReg (jumpTo _ s) v hr ▸ hc

/-- Settles O44: a completed execution by the two lemmas above, and a fault touches no register and reads none. -/
theorem registersNotNamedAreNeitherReadNorWritten : Obligations.RegistersNotNamedAreNeitherReadNorWritten := by
  intro i s t r h
  rcases completes_or_fault_of_exec h with hc | ⟨x, hx, rfl⟩
  · exact ⟨hc.reg_changed, fun hop hsp v => (hc.setReg v hop hsp).exec_eq⟩
  · exact ⟨fun hr => absurd rfl hr, fun _ _ v => exec_of_firstBadRegister (s.setReg r v) hx⟩

end Sys2Proof.Machine
end

section
/-! PROOFS. Canonical memories are determined by their contents (log entry 6). -/

namespace Sys2Proof.Machine

theorem wf_of_cons {c : Host.Cell} {m : Memory} (h : Memory.wf (c :: m)) : Memory.wf m :=
  ⟨h.1.of_cons, fun d hd => h.2 d (.tail _ hd)⟩

/-- In canonical form a cell is listed exactly where it reads as its own, nonzero byte. -/
theorem mem_iff_get {m : Memory} (h : m.wf) (c : Host.Cell) :
    c ∈ m ↔ c.2 ≠ Memory.unlisted ∧ m.get c.1 = c.2 := by
  induction m with
  | nil => simp [eq_comm]
  | cons d m ih =>
    obtain ⟨hlt, -⟩ := List.pairwise_cons.1 h.1
    rw [List.mem_cons, get_cons]
    by_cases hd : d.1 = c.1
    · have hout : c ∉ m := fun hc => absurd (hlt c hc) (by omega)
      have hnz := (h.2 d (.head _)).2
      rw [if_pos hd]
      constructor
      · rintro (rfl | hc)
        · exact ⟨hnz, rfl⟩
        · exact absurd hc hout
      · rintro ⟨-, hv⟩
        exact .inl (Prod.ext hd.symm hv.symm)
    · rw [if_neg hd, ← ih (wf_of_cons h)]
      exact or_iff_right fun e => hd (congrArg Prod.fst e.symm)

theorem nodup_of_wf {m : Memory} (h : m.wf) : m.Nodup :=
  h.1.imp fun hlt e => absurd hlt (by simp [e])

/-- Settles O48: canonical memories with the same contents list the same cells, each once and in the same order. -/
theorem canonicalMemoryIsItsContents : Obligations.CanonicalMemoryIsItsContents := by
  intro m n hm hn hget
  have hall (x : Nat) : m.get x = n.get x := by
    by_cases hx : x < 256
    · exact hget x hx
    · rw [get_outside m hm (Nat.not_lt.1 hx), get_outside n hn (Nat.not_lt.1 hx)]
  have hperm : m.Perm n := (List.perm_ext_iff_of_nodup (nodup_of_wf hm) (nodup_of_wf hn)).2 fun c => by
    rw [mem_iff_get hm, mem_iff_get hn, hall]
  exact hperm.eq_of_pairwise (fun _ _ _ _ h h' => absurd h (Nat.lt_asymm h')) hm.1 hn.1

end Sys2Proof.Machine
end

section
/-! PROOFS. Memory: which instructions write it, that no data access is out of range, and what a cell reads as after
any writes (R34, R35, R43). -/

namespace Sys2Proof.Machine

variable {i : Instr} {s t : State}

/-! ## The instructions that write memory -/

theorem memSame_of_mem_eq (h : t.mem = s.mem) : memSame s t := memRead_congr h

theorem memSameExcept_of_mem_eq (a : Nat) (h : t.mem = s.mem) : memSameExcept a s t :=
  fun x _ => memRead_congr h x

theorem memSameExcept_of_mem_eq_set {a : Nat} {v : Byte} (h : t.mem = s.mem.set a v) : memSameExcept a s t :=
  fun x hx => by rw [memRead_set s t a x v h, if_neg fun hax => hx hax.1]

/-- Only ST, PUSH and CALL change memory when they complete. -/
theorem Completes.mem_eq (h : Completes s i t) (hi : mnemonicOf i ∉ [.st, .push, .call]) : t.mem = s.mem := by
  cases h with
  | push | call | st => simp [mnemonicOf] at hi
  | jeq | jne => split <;> rfl
  | _ => rfl

/-- Settles O43: a fault writes nothing, and a completed instruction writes what its equation says. -/
theorem onlyStPushAndCallWriteMemory : Obligations.OnlyStPushAndCallWriteMemory := by
  intro i s t h
  rcases completes_or_fault_of_exec h with hc | ⟨x, -, rfl⟩
  · refine ⟨fun hi => memSame_of_mem_eq (hc.mem_eq hi), ?_, ?_⟩
    · rintro addr imm rfl
      cases hc
      exact memSameExcept_of_mem_eq_set rfl
    · rintro a (rfl | rfl)
      · cases hc
        exact memSameExcept_of_mem_eq_set rfl
      · cases hc
        exact memSameExcept_of_mem_eq_set rfl
  · exact ⟨fun _ => memSame_of_mem_eq rfl, fun _ _ _ => memSameExcept_of_mem_eq _ rfl,
      fun _ _ => memSameExcept_of_mem_eq _ rfl⟩

/-- Settles O45: a completed instruction leaves the status running or halts, and the one fault an execution takes is
BadRegister. -/
theorem dataAccessesAreNeverOutOfRange : Obligations.DataAccessesAreNeverOutOfRange := by
  intro i s t hs h addr hbad
  rcases completes_or_fault_of_exec h with hc | ⟨x, -, rfl⟩
  · rcases hc.status_cases with hst | ⟨-, rfl⟩
    · cases (hst.trans hs).symm.trans hbad
    · cases hbad
  · cases hbad

/-! ## A list of byte writes -/

/-- The memory after some bytes are written, each at its byte address, the first of the list first. -/
def writeBytes (ws : List (Byte × Byte)) (m : Memory) : Memory := ws.foldl (fun m w => m.set w.1.toNat w.2) m

/-- Writes at byte addresses all succeed, and change only memory. -/
theorem foldlM_memWrite (ws : List (Byte × Byte)) (s : State) :
    ws.foldlM (fun s w => memWrite w.1.toNat w.2 s) s = .ok (s.setMem (writeBytes ws s.mem)) := by
  induction ws generalizing s with
  | nil => rfl
  | cons w ws ih => rw [List.foldlM_cons, memWrite_byte, ok_bind, ih]; rfl

/-- A cell after some writes holds the last byte written to it, or what it held before. -/
theorem get_writeBytes (ws : List (Byte × Byte)) (m : Memory) (x : Nat) :
    (writeBytes ws m).get x =
      (ws.reverse.find? fun w => decide (w.1.toNat = x)).elim (m.get x) Prod.snd := by
  induction ws using List.reverseRecOn with
  | nil => rfl
  | append_singleton ws w ih =>
    rw [writeBytes, List.foldl_concat, ← writeBytes, get_set, List.reverse_concat]
    by_cases hw : w.1.toNat = x
    · rw [if_pos hw.symm, List.find?_cons_of_pos (by simpa using hw), Option.elim_some]
    · rw [if_neg (Ne.symm hw), List.find?_cons_of_neg (by simpa using hw), ih]

/-- A cell of a loaded image holds the image's byte, and 0x00 beyond the image (R127). -/
theorem get_storeBytes_zero_nil (img : List Byte) (x : Nat) : (storeBytes 0 img []).get x = img.getD x 0x00 := by
  rw [get_storeBytes]
  split
  · rfl
  · rw [List.getD_eq_default _ _ (by omega)]; rfl

/-- Settles O47: the load gives the image's bytes, and the writes, which all succeed, put the last byte of each cell
over them. -/
theorem readsReturnTheMostRecentWrite : Obligations.ReadsReturnTheMostRecentWrite := by
  intro img s ws h
  obtain ⟨-, rfl⟩ := boot_eq_some h
  refine ⟨_, foldlM_memWrite ws _, fun x hx => ?_⟩
  rw [memRead_ok _ hx, setMem_mem, setMem_mem, get_writeBytes, get_storeBytes_zero_nil]
  cases ws.reverse.find? fun w => decide (w.1.toNat = x) with
  | none => rfl
  | some w => rfl

end Sys2Proof.Machine
end

section
/-! PROOFS. The instruction whose bytes stand at the pc is the one executed (R37, R49, R68). -/

namespace Sys2Proof.Machine

variable {opc : OpcodeMap} {i : Instr} {s : State}

theorem length_operandBytes_le (i : Instr) : (operandBytes i).length ≤ 2 := by
  cases i with
  | hlt | ret => exact Nat.zero_le 2
  | prn | pra | inc | dec | push | pop | call | jeq | jne | jmp => exact Nat.le_succ 1
  | ldi | mul | add | cmp | ld | st => exact Nat.le_refl 2

/-- An instruction is built again from any two bytes that begin with its operand bytes (R51, R57). -/
theorem buildInstr_of_prefix {a b : Byte} (h : operandBytes i <+: [a, b]) : buildInstr (mnemonicOf i) a b = i := by
  cases i with
  | hlt | ret => rfl
  | prn | pra | inc | dec | push | pop | call | jeq | jne | jmp =>
    obtain ⟨rfl, -⟩ := List.cons_prefix_cons.1 h
    rfl
  | ldi | mul | add | cmp | ld | st =>
    obtain ⟨rfl, htail⟩ := List.cons_prefix_cons.1 h
    obtain ⟨rfl, -⟩ := List.cons_prefix_cons.1 htail
    rfl

/-- Three bytes that begin with an instruction's encoding decode to it. -/
theorem decodeWith_of_encodeWith_prefix (hinj : Function.Injective opc) {op a b : Byte}
    (h : encodeWith opc i <+: [op, a, b]) : decodeWith opc ⟨op, a, b⟩ = .ok i := by
  obtain ⟨rfl, hops⟩ := List.cons_prefix_cons.1 h
  rw [decodeWith_some (lookupOpcode_self hinj (mnemonicOf i)), buildInstr_of_prefix hops]

/-- Bytes of an encoding that read at ascending addresses from the pc begin the three bytes a fetch latches. -/
theorem encodeWith_prefix_of_memRead (hpc : s.pc ≤ 253)
    (h : ∀ (k : Nat) (hk : k < (encodeWith opc i).length), memRead (s.pc + k) s = .ok (encodeWith opc i)[k]) :
    encodeWith opc i <+: [s.mem.get s.pc, s.mem.get (s.pc + 1), s.mem.get (s.pc + 2)] := by
  have hlen : (encodeWith opc i).length ≤ 3 := Nat.succ_le_succ (length_operandBytes_le i)
  refine List.prefix_iff_getElem.2 ⟨hlen, fun k hk => ?_⟩
  have hread := (h k hk).symm.trans (memRead_ok s (show s.pc + k < 256 by omega))
  injection hread with hbyte
  rw [hbyte]
  match k, Nat.lt_of_lt_of_le hk hlen with
  | 0, _ => rfl
  | 1, _ => rfl
  | 2, _ => rfl

/-- Settles O49: the fetch latches bytes that begin with the encoding, so they decode to the instruction. -/
theorem instructionBytesAtThePcAreExecuted : Obligations.InstructionBytesAtThePcAreExecuted := by
  intro opc hinj i s hs hpc hbytes
  exact cycle_exec hs (fetch_ok s hpc) (decodeWith_of_encodeWith_prefix hinj (encodeWith_prefix_of_memRead hpc hbytes))

end Sys2Proof.Machine
end

section
/-! PROOFS. Encoding and decoding: the round trips, the exact match of the opcode byte, formats and lengths (R49 to
R58). -/

namespace Sys2Proof.Machine

variable {opc : OpcodeMap} {i : Instr} {s t : State}

/-! ## The two directions of the round trip -/

/-- The latch made of an opcode byte, at most two operand bytes and any two bytes more keeps the opcode byte and begins
with the operand bytes. -/
theorem latchOf_cons_append {ops : List Byte} (h : ops.length ≤ 2) (op x y : Byte) (rest : List Byte) :
    ∃ a b, latchOf (op :: ops ++ x :: y :: rest) = some ⟨op, a, b⟩ ∧ ops <+: [a, b] := by
  match ops, h with
  | [], _ => exact ⟨x, y, rfl, List.nil_prefix⟩
  | [a], _ => exact ⟨a, x, rfl, [x], rfl⟩
  | [a, b], _ => exact ⟨a, b, rfl, List.prefix_rfl⟩

/-- Settles O1: the latch begins with the encoding, so it decodes to the instruction. -/
theorem decodingAnEncodingGivesTheInstruction : Obligations.DecodingAnEncodingGivesTheInstruction := by
  intro opc hinj i x y rest
  obtain ⟨a, b, hlatch, hops⟩ := latchOf_cons_append (length_operandBytes_le i) (opc (mnemonicOf i)) x y rest
  exact ⟨_, hlatch, decodeWith_of_encodeWith_prefix hinj ((List.prefix_cons_inj _).2 hops)⟩

/-- A built instruction takes as many of the two operand bytes as its format has (R50). -/
theorem operandBytes_buildInstr (m : Mnemonic) (a b : Byte) :
    operandBytes (buildInstr m a b) = [a, b].take (operandCount (formatOf m)) := by
  cases m <;> rfl

@[simp] theorem instrLength_buildInstr (m : Mnemonic) (a b : Byte) :
    instrLength (buildInstr m a b) = 1 + operandCount (formatOf m) := by
  rw [instrLength, mnemonicOf_buildInstr]

/-- A built instruction encodes to the bytes it was built from, as many as its length (R49). -/
theorem encodeWith_buildInstr (opc : OpcodeMap) (m : Mnemonic) (a b : Byte) :
    encodeWith opc (buildInstr m a b) = [opc m, a, b].take (instrLength (buildInstr m a b)) := by
  rw [encodeWith, mnemonicOf_buildInstr, operandBytes_buildInstr, instrLength_buildInstr, Nat.add_comm,
    List.take_succ_cons]

/-- Settles O2: an instruction that the decoder answers was built from the latched bytes. -/
theorem encodingADecodedInstructionGivesItsBytes : Obligations.EncodingADecodedInstructionGivesItsBytes := by
  intro opc l i h
  rcases decodeWith_cases opc l with ⟨m, hm, hok⟩ | ⟨-, herr⟩
  · cases h.symm.trans hok
    rw [← hm]
    exact encodeWith_buildInstr opc m l.a l.b
  · cases h.symm.trans herr

/-! ## The exact match of the opcode byte, formats and lengths -/

/-- A mnemonic's own opcode byte decodes to what it builds from the operand bytes, whatever they are (R54). -/
theorem decodeWith_opcode (hinj : Function.Injective opc) (m : Mnemonic) (a b : Byte) :
    decodeWith opc ⟨opc m, a, b⟩ = .ok (buildInstr m a b) :=
  decodeWith_some (lookupOpcode_self hinj m)

theorem wellFormed_iff : i.wellFormed = true ↔ ∀ x ∈ i.regOperands, x.toNat < 8 := by
  simp [Instr.wellFormed]

/-- A completed instruction that is no control transfer moves the pc on by its length (R54, R73). -/
theorem Completes.pc_eq (h : Completes s i t) (hi : mnemonicOf i ∉ [.call, .ret, .jeq, .jne, .jmp]) :
    t.pc = s.pc + instrLength i := by
  cases h with
  | call | ret | jeq | jne | jmp => simp [mnemonicOf] at hi
  | _ => rfl

/-- Settles O5: a matched byte decodes to what its mnemonic builds, a byte without a mnemonic is rejected, and a
well-formed instruction completes. -/
theorem decodingMatchesTheWholeOpcodeByte : Obligations.DecodingMatchesTheWholeOpcodeByte := by
  refine ⟨fun opc hinj ⟨op, a, b⟩ => ⟨?_, fun hn => decodeWith_none (lookupOpcode_none.2 hn)⟩, fun i s hwf hi => ?_⟩
  · rintro m rfl
    exact ⟨_, decodeWith_opcode hinj m a b, mnemonicOf_buildInstr m a b, instrLength_buildInstr m a b⟩
  · obtain ⟨t, hc⟩ := exists_completes_of_regOperands_lt s (wellFormed_iff.1 hwf)
    exact ⟨t, hc.exec_eq, hc.pc_eq hi⟩

/-- Settles O6: each opcode decodes to what its mnemonic builds, and the format of the mnemonic gives the length. -/
theorem formatsFixOperandsAndLengths : Obligations.FormatsFixOperandsAndLengths := by
  intro opc hinj a b
  have hdec (m : Mnemonic) : decodeWith opc ⟨opc m, a, b⟩ = .ok (buildInstr m a b) := decodeWith_opcode hinj m a b
  have hone : ∀ m ∈ [.hlt, .ret], 1 + operandCount (formatOf m) = 1 := by decide
  have htwo : ∀ m ∈ [.prn, .pra, .inc, .dec, .push, .pop, .call, .jeq, .jne, .jmp],
      1 + operandCount (formatOf m) = 2 := by decide
  have hthree : ∀ m ∈ [.mul, .add, .cmp, .ld, .ldi, .st], 1 + operandCount (formatOf m) = 3 := by decide
  exact ⟨hdec .hlt, hdec .ret, hdec .prn, hdec .pra, hdec .inc, hdec .dec, hdec .push, hdec .pop, hdec .call,
    hdec .jeq, hdec .jne, hdec .jmp, hdec .mul, hdec .add, hdec .cmp, hdec .ld, hdec .ldi, hdec .st,
    fun i => hone (mnemonicOf i), fun i => htwo (mnemonicOf i), fun i => hthree (mnemonicOf i)⟩

/-! ## R55's opcode table -/

theorem decode_opcodeMap (m : Mnemonic) (a b : Byte) : decode ⟨opcodeMap m, a, b⟩ = .ok (buildInstr m a b) :=
  decodeWith_opcode opcodeMap_injective m a b

/-- Settles O3: the encodings by evaluation, the decodes by the rows of LDI, PRN and HLT. -/
theorem sourceExampleEncodings : Obligations.SourceExampleEncodings :=
  ⟨rfl, rfl, rfl, decode_opcodeMap .ldi 0 8, decode_opcodeMap .prn 0 1, decode_opcodeMap .hlt 0 0⟩

/-- Settles O4: each first byte is the one of its row. -/
theorem opcodeTableWordsDecode : Obligations.OpcodeTableWordsDecode :=
  ⟨decode_opcodeMap .mul 3 5, decode_opcodeMap .inc 6 0xFF, decode_opcodeMap .push 7 0, decode_opcodeMap .jne 2 0,
    decode_opcodeMap .ret 9 9, decode_opcodeMap .st 0x40 0xFF, decode_opcodeMap .cmp 9 8, decode_opcodeMap .pra 6 1⟩

/-- A mnemonic's opcode byte as a number. -/
def opcodeNat (opc : OpcodeMap) (m : Mnemonic) : Nat := (opc m).toNat

theorem opcodeNat_injective (hinj : Function.Injective opc) : Function.Injective (opcodeNat opc) :=
  fun _ _ h => hinj (BitVec.eq_of_toNat_eq h)

/-- The byte values with a mnemonic are the opcode bytes of the mnemonics. -/
theorem isSome_lookupOpcode_ofNat_iff {n : Nat} (hn : n < 256) :
    (lookupOpcode opc (BitVec.ofNat 8 n)).isSome ↔ ∃ m, opcodeNat opc m = n := by
  rw [Option.isSome_iff_ne_none, ne_eq, lookupOpcode_none, not_forall_not]
  refine exists_congr fun m => ⟨fun h => ?_, fun h => ?_⟩
  · rw [opcodeNat, h, BitVec.toNat_ofNat, Nat.mod_eq_of_lt hn]
  · rw [← h, opcodeNat, BitVec.ofNat_toNat, BitVec.setWidth_eq]

/-- Under an injective assignment the recognized byte values are the eighteen opcode bytes, in some order. -/
theorem recognized_perm (hinj : Function.Injective opc) :
    ((List.range 256).filter fun n => !lookupOpcode opc (BitVec.ofNat 8 n) == none).Perm
      (allMnemonics.map (opcodeNat opc)) := by
  have hnodup : (allMnemonics.map (opcodeNat opc)).Nodup :=
    List.Nodup.map (opcodeNat_injective hinj) (by decide)
  refine (List.perm_ext_iff_of_nodup (List.nodup_range.filter _) hnodup).2 fun n => ?_
  have hlt : (∃ m, opcodeNat opc m = n) → n < 256 := fun ⟨m, hm⟩ => hm ▸ (opc m).isLt
  simp only [List.mem_filter, List.mem_range, List.mem_map, mem_allMnemonics, true_and]
  constructor
  · rintro ⟨hn, hp⟩
    exact (isSome_lookupOpcode_ofNat_iff hn).1 (by simpa using hp)
  · intro h
    exact ⟨hlt h, by simpa using (isSome_lookupOpcode_ofNat_iff (hlt h)).2 h⟩

/-- Every injective assignment leaves 238 of the 256 byte values without a mnemonic (R58). -/
theorem length_unrecognized (hinj : Function.Injective opc) :
    ((List.range 256).filter fun n => lookupOpcode opc (BitVec.ofNat 8 n) == none).length = 238 := by
  have hsplit := List.length_eq_length_filter_add (l := List.range 256)
    fun n => lookupOpcode opc (BitVec.ofNat 8 n) == none
  have hmnemonics : allMnemonics.length = 18 := rfl
  rw [(recognized_perm hinj).length_eq, List.length_map, List.length_range, hmnemonics] at hsplit
  omega

/-- Settles O7: R55's table is injective, and 0x00 and 0xA1 have no row in it. -/
theorem unrecognizedOpcodeBytes : Obligations.UnrecognizedOpcodeBytes := by
  have h00 : lookupOpcode opcodeMap 0x00 = none := by decide
  have hA1 : lookupOpcode opcodeMap 0xA1 = none := by decide
  exact ⟨length_unrecognized opcodeMap_injective, fun _ _ => ⟨decodeWith_none h00, decodeWith_none hA1⟩⟩

/-! ## Immediate operands -/

/-- Settles O25: LDI and ST complete as their equations say, and the frames are those of a register write and of a
memory write. -/
theorem ldiAndStUseWholeOperandBytes : Obligations.LdiAndStUseWholeOperandBytes := by
  refine ⟨fun s a imm ha => ⟨_, exec_ldi s imm ha, rfl, setReg_reg_self s _ imm, ?_⟩,
    fun s addr imm => ⟨_, exec_st s addr imm, rfl, ?_, ?_⟩⟩
  · exact ⟨fun r hr => setReg_reg_ne s imm (by simpa using hr), memSame_of_mem_eq rfl, rfl, rfl, rfl⟩
  · rw [memRead_byte, advance_mem, setMem_mem, get_set_self]
  · exact ⟨fun _ _ => rfl, memSameExcept_of_mem_eq_set rfl, rfl, rfl, rfl⟩

end Sys2Proof.Machine
end

section
/-! PROOFS. The cycle: a step through its three reads, the register checks and the pc updates, when a run ends, and when a
written byte is fetched (R67 to R79). -/

namespace Sys2Proof.Machine

variable {opc : OpcodeMap} {i : Instr} {s t : State} {op a b : Byte}

/-! ## The three reads of a fetch -/

/-- A fetch completes with the bytes that its three reads give (R68). -/
theorem fetch_eq_ok_iff_fetches : fetch s = .ok ⟨op, a, b⟩ ↔ fetches s op a b := by
  unfold fetches
  rcases fetch_cases s with ⟨hpc, hf⟩ | ⟨hpc, hf⟩
  · rw [hf, memRead_ok s (show s.pc < 256 by omega), memRead_ok s (show s.pc + 1 < 256 by omega),
      memRead_ok s (show s.pc + 2 < 256 by omega)]
    simp
  · simp [hf, memRead_bad s (show 256 ≤ s.pc + 2 by omega)]

/-- A fetch completes at a pc of at most 253 (R68). -/
theorem fetches_of_pc_le (h : s.pc ≤ 253) :
    fetches s (s.mem.get s.pc) (s.mem.get (s.pc + 1)) (s.mem.get (s.pc + 2)) :=
  fetch_eq_ok_iff_fetches.1 (fetch_ok s h)

/-- The first of the three reads that faults is the fault of the fetch (R111). -/
theorem fetch_error_of_memRead {r : Fault}
    (h : memRead s.pc s = .error r ∨ ∃ op, memRead s.pc s = .ok op ∧
      (memRead (s.pc + 1) s = .error r ∨ ∃ a, memRead (s.pc + 1) s = .ok a ∧ memRead (s.pc + 2) s = .error r)) :
    fetch s = .error r := by
  rcases h with h0 | ⟨op, h0, h1 | ⟨a, h1, h2⟩⟩
  · rw [fetch, h0, error_bind]
  · rw [fetch, h0, ok_bind, h1, error_bind]
  · rw [fetch, h0, ok_bind, h1, ok_bind, h2, error_bind]

/-- The step on fetched bytes that decode is the instruction's execution (R67). -/
theorem cycle_of_fetches (hs : s.status = .running) (hf : fetches s op a b) (hd : decodeWith opc ⟨op, a, b⟩ = .ok i) :
    cycle opc s = exec i s :=
  cycle_exec hs (fetch_eq_ok_iff_fetches.2 hf) hd

/-- The step on a fetched row of R55's table is that row's instruction. -/
theorem step_of_fetches_opcodeMap {m : Mnemonic} (hs : s.status = .running) (hf : fetches s (opcodeMap m) a b) :
    step s = exec (buildInstr m a b) s :=
  cycle_of_fetches hs hf (decode_opcodeMap m a b)

/-- Settles O8: the fetched bytes are latched and decoded, and the step executes what they decode to. -/
theorem stepRunsTheDecodedInstruction : Obligations.StepRunsTheDecodedInstruction :=
  fun _ _ _ _ _ hs hf hd => cycle_of_fetches hs hf hd

/-- Settles O9: each clause is one way a step can end, and the register checks are those of the execution. -/
theorem cycleFetchesDecodesChecksExecutes : Obligations.CycleFetchesDecodesChecksExecutes := by
  refine fun opc s hs => ⟨fun r hr => cycle_fetch_fault hs (fetch_error_of_memRead hr), fun op a b hf => ⟨?_, ?_⟩⟩
  · intro hn
    exact cycle_unrecognized hs (fetch_eq_ok_iff_fetches.2 hf) (decodeWith_none (lookupOpcode_none.2 hn))
  · intro i hd
    have hexec : cycle opc s = exec i s := cycle_of_fetches hs hf hd
    exact ⟨fun byte hbad => hexec.trans (exec_of_firstBadRegister s hbad), fun _ => hexec⟩

/-- Settles O10: the two things a fetch can answer. -/
theorem fetchAtTheTopOfMemoryFaults : Obligations.FetchAtTheTopOfMemoryFaults := by
  refine fun s hs => ⟨fun hpc => ⟨_, _, _, fetches_of_pc_le hpc⟩, fun hpc => ?_⟩
  rcases fetch_cases s with ⟨hle, -⟩ | ⟨-, hf⟩
  · omega
  · exact cycle_fetch_fault hs hf

/-! ## The register checks -/

theorem firstBadRegister_of_head (h : i.regOperands.head? = some a) (ha : 8 ≤ a.toNat) :
    firstBadRegister i = some a := by
  obtain ⟨rest, hrest⟩ := List.head?_eq_some_iff.1 h
  rw [firstBadRegister, hrest, List.find?_cons_of_pos (by simpa using ha)]

theorem firstBadRegister_of_second (h : i.regOperands = [a, b]) (ha : a.toNat < 8) (hb : 8 ≤ b.toNat) :
    firstBadRegister i = some b := by
  rw [firstBadRegister, h, List.find?_cons_of_neg (by simpa using ha), List.find?_cons_of_pos (by simpa using hb)]

/-- Settles O11: `a` is the first register operand of each listed instruction, and MUL, ADD, CMP and LD have `a` and
then `b`. -/
theorem badRegisterFaultsArePrecise : Obligations.BadRegisterFaultsArePrecise := by
  refine fun s a b => ⟨fun ha i hi => ?_, fun ha hb i hi => ?_⟩
  · have hops : i.regOperands.head? = some a := by fin_cases hi <;> rfl
    exact exec_of_firstBadRegister s (firstBadRegister_of_head hops ha)
  · have hops : i.regOperands = [a, b] := by fin_cases hi <;> rfl
    exact exec_of_firstBadRegister s (firstBadRegister_of_second hops ha hb)

/-! ## The pc updates -/

/-- Settles O34, which is HLT's equation. -/
theorem hltAdvancesThenHalts : Obligations.HltAdvancesThenHalts := exec_hlt

/-- Settles O13: the pc of each instruction's equation. -/
theorem pcUpdateTable : Obligations.PcUpdateTable := by
  refine fun s a b => ⟨⟨_, exec_hlt s, rfl, rfl⟩, ⟨_, exec_ret s, _, memRead_byte s _, rfl⟩, ⟨_, exec_st s a b, rfl⟩,
    fun ha => ⟨fun i hi => ?_, ⟨_, exec_ldi s b ha, rfl⟩, ⟨_, exec_call s ha, rfl⟩, ⟨_, exec_jmp s ha, rfl⟩,
      ⟨_, exec_jeq s ha, ?_⟩, ⟨_, exec_jne s ha, ?_⟩⟩, fun ha hb i hi => ?_⟩
  · fin_cases hi
    exacts [⟨_, exec_prn s ha, rfl⟩, ⟨_, exec_pra s ha, rfl⟩, ⟨_, exec_inc s ha, rfl⟩, ⟨_, exec_dec s ha, rfl⟩,
      ⟨_, exec_push s ha, rfl⟩, ⟨_, exec_pop s ha, rfl⟩]
  · cases s.flags.E <;> rfl
  · cases s.flags.E <;> rfl
  · fin_cases hi
    exacts [⟨_, exec_mul s ha hb, rfl⟩, ⟨_, exec_add s ha hb, rfl⟩, ⟨_, exec_cmp s ha hb, rfl⟩,
      ⟨_, exec_ld s ha hb, rfl⟩]

/-! ## When a run ends -/

theorem run_succ_of_step (h : step s = .next t) (k : Nat) : core.run (k + 1) s = core.run k t := by
  simp [Host.Core.run, show core.step s = .next t from h]

/-- A state that is its own next state stays, however many steps are taken. -/
theorem run_of_step_eq_self (h : step s = .next s) (k : Nat) : core.run k s = .next s := by
  induction k with
  | zero => rfl
  | succ k ih => rw [run_succ_of_step h, ih]

/-- Settles O14: a stopped core's step answers the same state (log entry 4). -/
theorem stoppedCoreKeepsItsState : Obligations.StoppedCoreKeepsItsState :=
  fun _ hs => run_of_step_eq_self (cycle_stopped hs)

theorem jumpTo_eq_self {v : Byte} (h : v.toNat = s.pc) : jumpTo v s = s := by
  rw [jumpTo, h]

/-- Settles O15, by what a step can do: an instruction that completes stays running unless it is HLT, and a jump to its
own address leaves the state as it is. -/
theorem onlyTheNamedConditionsEndARun : Obligations.OnlyTheNamedConditionsEndARun := by
  refine ⟨fun s t hs hstep => ?_, fun s a b ha hs hf hpc => run_of_step_eq_self ?_⟩
  · rcases step_next_cases hstep with
      ⟨hn, -⟩ | ⟨-, hpc, rfl⟩ | ⟨-, hpc, hn, rfl⟩ | ⟨-, hpc, m, hm, hexec⟩
    · exact absurd hs hn
    · exact .inr (.inr (.inr (.inl ⟨_, rfl, hpc⟩)))
    · exact .inr (.inr (.inl ⟨_, rfl, memRead_ok s (by omega), hn⟩))
    · have hf := fetches_of_pc_le hpc
      rw [← hm] at hf
      rcases completes_or_fault_of_exec hexec with hc | ⟨x, hx, rfl⟩
      · rcases hc.status_cases with hst | ⟨hi, rfl⟩
        · exact .inl (hst.trans hs)
        · rw [mnemonicOf_buildInstr] at hi
          exact .inr (.inl ⟨rfl, hi ▸ hf.1⟩)
      · obtain ⟨hmem, h8⟩ := firstBadRegister_some hx
        exact .inr (.inr (.inr (.inr ⟨_, _, _, _, x, rfl, hf, decode_opcodeMap m _ _, hmem, h8⟩)))
  · calc step s = exec (.jmp a) s := step_of_fetches_opcodeMap hs hf
      _ = .next (jumpTo (s.reg ⟨a.toNat, ha⟩) s) := exec_jmp s ha
      _ = .next s := by rw [jumpTo_eq_self hpc]

/-! ## The placed word -/

theorem decode_of_decodeTableWord {nbits w : Nat} (h : decodeTableWord nbits w = some i) :
    decode ⟨tableByte nbits w 0, tableByte nbits w 1, tableByte nbits w 2⟩ = .ok i := by
  unfold decodeTableWord at h
  split at h
  · cases h
    assumption
  · cases h

theorem withFetchWord_pc_le (s : State) (nbits w : Nat) : (s.withFetchWord nbits w).pc ≤ 253 := by
  change (if s.pc + 2 < 256 then s.pc else 0) ≤ 253
  split <;> omega

/-- The cells after a word is placed: its three bytes at the pc it is fetched from, the others as before. -/
theorem get_withFetchWord (s : State) (nbits w x : Nat) :
    (s.withFetchWord nbits w).mem.get x =
      if (s.withFetchWord nbits w).pc ≤ x ∧ x < (s.withFetchWord nbits w).pc + 3 then
        (tableBytes nbits w).getD (x - (s.withFetchWord nbits w).pc) 0
      else s.mem.get x :=
  get_storeBytes (tableBytes nbits w) _ s.mem x

/-- The three bytes of the placed word are the ones fetched. -/
theorem fetch_withFetchWord (s : State) (nbits w : Nat) :
    fetch (s.withFetchWord nbits w) = .ok ⟨tableByte nbits w 0, tableByte nbits w 1, tableByte nbits w 2⟩ := by
  rw [fetch_ok _ (withFetchWord_pc_le s nbits w)]
  simp [get_withFetchWord, tableBytes]

/-- Where a fetch completes at the pc of a running core, placing a word changes memory alone. -/
theorem withFetchWord_of_running (nbits w : Nat) (hs : s.status = .running) (hpc : s.pc ≤ 253) :
    s.withFetchWord nbits w = s.setMem (storeBytes s.pc (tableBytes nbits w) s.mem) := by
  have hat : s.pc + 2 < Config.memSize := show s.pc + 2 < 256 by omega
  simp [State.withFetchWord, State.setMem, hat, hs]

/-- Settles O17: the placed bytes are fetched and decode to the instruction, and the cells outside them are as before. -/
theorem placedWordIsExecuted : Obligations.PlacedWordIsExecuted := by
  refine fun s nbits w => ⟨fun i hi => ?_, fun hs hpc => ?_⟩
  · exact cycle_exec rfl (fetch_withFetchWord s nbits w) (decode_of_decodeTableWord hi)
  · have hplaced := withFetchWord_of_running nbits w hs hpc
    refine ⟨by rw [hplaced]; rfl, fun x hx => ?_⟩
    have hout : ¬ (s.pc ≤ x ∧ x < s.pc + (tableBytes nbits w).length) := by
      simp only [tableBytes, List.length_cons, List.length_nil]
      omega
    simp only [hplaced, memRead, setMem_mem, get_storeBytes, if_neg hout]

/-! ## Writes and later fetches -/

/-- Settles O46: the step is the instruction of the latched bytes, and a fetch reads the bytes that memory holds then. -/
theorem writesReachLaterFetchesOnly : Obligations.WritesReachLaterFetchesOnly := by
  refine ⟨fun s t op a b i hs hf hd hstep => ⟨?_, ?_⟩, fun s a b hs hf => ?_⟩
  · exact (cycle_of_fetches hs hf hd).symm.trans hstep
  · rintro x u l hx hfu
    obtain ⟨hop, ha, hb⟩ := fetch_eq_ok_iff_fetches.1 hfu
    rw [← hx]
    exact ⟨fun h => h ▸ hop, fun h => h ▸ ha, fun h => h ▸ hb⟩
  · refine ⟨_, (step_of_fetches_opcodeMap hs hf).trans (exec_st s a b), rfl, ?_, memSameExcept_of_mem_eq_set rfl⟩
    rw [memRead_byte, advance_mem, setMem_mem, get_set_self]

end Sys2Proof.Machine
end

section
/-! PROOFS. The ALU: results modulo 256 (R81, R82), the instructions that write them (R87 to R90), and CMP with its sticky
flags (R83, R84, R91). -/

namespace Sys2Proof.Machine

/-! ## Results modulo 256 -/

/-- `wrap8` of an integer is the remainder of any natural number congruent to it. -/
theorem wrap8_toNat_of_modEq {v : Int} {n : Nat} (h : v ≡ n [ZMOD 256]) : (wrap8 v).toNat = n % 256 := by
  rw [wrap8_toNat, h.eq]
  omega

theorem alu_add_toNat (x y : Byte) : (alu .add x y).toNat = (x.toNat + y.toNat) % 256 :=
  wrap8_toNat_of_modEq (by rw [aluExact, Nat.cast_add])

/-- The difference wraps: a borrow of 256 is congruent to none. -/
theorem alu_sub_toNat (x y : Byte) : (alu .sub x y).toNat = (x.toNat + 256 - y.toNat) % 256 := by
  refine wrap8_toNat_of_modEq ?_
  have := y.isLt
  simp only [aluExact, Int.ModEq]
  omega

theorem alu_mul_toNat (x y : Byte) : (alu .mul x y).toNat = (x.toNat * y.toNat) % 256 :=
  wrap8_toNat_of_modEq (by rw [aluExact, Nat.cast_mul])

theorem alu_inc_toNat (x y : Byte) : (alu .inc x y).toNat = (x.toNat + 1) % 256 :=
  wrap8_toNat_of_modEq (by rw [aluExact, Nat.cast_succ])

/-- To subtract one is to add 255. -/
theorem alu_dec_toNat (x y : Byte) : (alu .dec x y).toNat = (x.toNat + 255) % 256 := by
  refine wrap8_toNat_of_modEq ?_
  simp only [aluExact, Int.ModEq]
  omega

/-- Settles O18: each operation's exact result is congruent to the number stated. -/
theorem aluResultsWrapModulo256 : Obligations.AluResultsWrapModulo256 :=
  fun x y => ⟨alu_add_toNat x y, alu_sub_toNat x y, alu_mul_toNat x y, alu_inc_toNat x y, alu_dec_toNat x y⟩

/-! ## MUL, ADD, INC and DEC -/

/-- The frame of an instruction that writes one register and moves on. -/
theorem onlyRegsChange_advance_setReg (n : Nat) (r : RegIndex) (v : Byte) (s : State) :
    onlyRegsChange [r] s (advance n (s.setReg r v)) :=
  ⟨fun _ hq => setReg_reg_ne s v (List.ne_of_not_mem_cons hq), memSame_of_mem_eq rfl, rfl, rfl, rfl⟩

/-- Where an execution answers a register write and moves on, it answers the pc, the value and the frame of that write. -/
theorem exec_writes_register {i : Instr} {s : State} {n k : Nat} {r : RegIndex} {v : Byte}
    (h : exec i s = .next (advance n (s.setReg r v))) (hv : v.toNat = k) :
    ∃ t, exec i s = .next t ∧ t.pc = s.pc + n ∧ (t.reg r).toNat = k ∧ onlyRegsChange [r] s t := by
  refine ⟨_, h, rfl, ?_, onlyRegsChange_advance_setReg n r v s⟩
  rw [advance_reg, setReg_reg_self, hv]

/-- Settles O19: MUL and ADD are register writes of their ALU results. -/
theorem mulAndAddWriteTheWrappedResult : Obligations.MulAndAddWriteTheWrappedResult := fun s _ _ ha hb =>
  ⟨exec_writes_register (exec_mul s ha hb) (alu_mul_toNat _ _),
    exec_writes_register (exec_add s ha hb) (alu_add_toNat _ _)⟩

/-- Settles O20: INC and DEC are register writes of their ALU results. -/
theorem incAndDecWriteTheWrappedResult : Obligations.IncAndDecWriteTheWrappedResult := fun s _ ha =>
  ⟨exec_writes_register (exec_inc s ha) (alu_inc_toNat _ _),
    exec_writes_register (exec_dec s ha) (alu_dec_toNat _ _)⟩

/-! ## CMP and the sticky flags -/

/-- Settles O21: CMP writes the flag computation's value, which `compareFlags_eq` gives, and moves on. -/
theorem cmpSetsTheOutcomeFlag : Obligations.CmpSetsTheOutcomeFlag := by
  intro s a b ha hb
  have hflags := compareFlags_eq (s.reg ⟨a.toNat, ha⟩) (s.reg ⟨b.toNat, hb⟩) s.flags
  refine ⟨_, exec_cmp s ha hb, rfl, congrArg Flags.L hflags, congrArg Flags.G hflags, ?_, fun _ _ => rfl,
    memSame_of_mem_eq rfl, rfl, rfl⟩
  rw [advance_flags, setFlags_flags, hflags, decide_eq_decide.2 BitVec.toNat_inj]

/-- Settles O22, by induction on the list: the first comparison ors its outcome into the flags that the others start
from. -/
theorem stickyFlagsRecordEveryOutcome : Obligations.StickyFlagsRecordEveryOutcome := by
  intro pairs
  induction pairs with
  | nil => simp
  | cons p ps ih =>
    intro f
    obtain ⟨hE, hL, hG⟩ := ih (compareFlags p.1 p.2 f)
    refine ⟨hE.trans ?_, hL.trans ?_, hG.trans ?_⟩ <;>
      simp only [compareFlags_eq, List.any_cons, Bool.or_assoc]

end Sys2Proof.Machine
end

section
/-! PROOFS. Data movement and the stack: PUSH, POP and their round trip (R93, R94), LD (R95), and LDI followed by PRN
(R92, R103). -/

namespace Sys2Proof.Machine

/-! ## The stack pointer among the register operands -/

/-- The operand byte 7, and no other, names the stack pointer (R16). -/
theorem operandIndex_eq_SP_iff {a : Byte} (ha : a.toNat < 8) : (⟨a.toNat, ha⟩ : RegIndex) = SP ↔ a = 7 :=
  Fin.ext_iff.trans (BitVec.toNat_inj (y := 7))

/-- The decremented stack pointer as a number: it wraps from 0x00 to 0xFF (R42). -/
theorem decSP_reg_SP_toNat (s : State) : ((decSP s).reg SP).toNat = ((s.reg SP).toNat + 255) % 256 := by
  rw [decSP_reg_SP, alu_dec_toNat]

/-- The incremented stack pointer as a number: it wraps from 0xFF to 0x00 (R42). -/
theorem incSP_reg_SP_toNat (s : State) : ((incSP s).reg SP).toNat = ((s.reg SP).toNat + 1) % 256 := by
  rw [incSP_reg_SP, alu_inc_toNat]

/-- To write a register what it holds changes nothing. -/
@[simp] theorem setReg_reg_eq_self (s : State) (r : RegIndex) : s.setReg r (s.reg r) = s := by
  simp [State.setReg, State.reg]

/-- Of two writes to one register the second counts. -/
@[simp] theorem setReg_setReg (s : State) (r : RegIndex) (v w : Byte) : (s.setReg r v).setReg r w = s.setReg r w := by
  simp [State.setReg]

/-- INC undoes DEC, through the wrap too. -/
theorem alu_inc_alu_dec (x y z : Byte) : alu .inc (alu .dec x y) z = x := by
  apply BitVec.eq_of_toNat_eq
  rw [alu_inc_toNat, alu_dec_toNat]
  have := x.isLt
  omega

/-- The increment of the stack pointer undoes its decrement. -/
theorem incSP_decSP (s : State) : incSP (decSP s) = s := by
  rw [incSP, decSP_reg_SP, alu_inc_alu_dec, decSP, setReg_setReg, setReg_reg_eq_self]

/-! ## PUSH and POP -/

/-- Settles O26: the operand is read after the decrement, so it is the decremented SP where it is R7. -/
theorem pushStoresBelowTheStackPointer : Obligations.PushStoresBelowTheStackPointer := by
  intro s a ha
  have hSP := decSP_reg_SP_toNat s
  refine ⟨_, exec_push s ha, rfl, hSP, ?_, ⟨?_, memSameExcept_of_mem_eq_set rfl, rfl, rfl, rfl⟩, hSP⟩
  · rw [← hSP, memRead_byte, advance_mem, setMem_mem, get_set_self]
    split
    next h7 => rw [(operandIndex_eq_SP_iff ha).2 h7, advance_reg, setMem_reg]
    next hne => rw [decSP_reg_ne s (mt (operandIndex_eq_SP_iff ha).1 hne)]
  · exact fun r hr => decSP_reg_ne s (List.ne_of_not_mem_cons hr)

/-- Settles O27: the increment comes after the load, so it reads the loaded byte where the operand is R7. -/
theorem popLoadsAtTheStackPointer : Obligations.PopLoadsAtTheStackPointer := by
  intro s a ha
  refine ⟨_, _, exec_pop s ha, memRead_byte s _, rfl, fun hne => ?_, fun h7 => ?_, ?_, memSame_of_mem_eq rfl, rfl, rfl,
    rfl⟩
  · have hSP : (⟨a.toNat, ha⟩ : RegIndex) ≠ SP := mt (operandIndex_eq_SP_iff ha).1 hne
    rw [advance_reg, advance_reg, incSP_reg_ne _ hSP, setReg_reg_self, incSP_reg_SP_toNat, setReg_reg_ne _ _ hSP.symm]
    exact ⟨rfl, rfl⟩
  · rw [advance_reg, incSP_reg_SP_toNat, (operandIndex_eq_SP_iff ha).2 h7, setReg_reg_self]
  · intro r hr
    obtain ⟨hra, hrSP⟩ : r ≠ ⟨a.toNat, ha⟩ ∧ r ≠ SP := by simpa using hr
    rw [advance_reg, incSP_reg_ne _ hrSP, setReg_reg_ne _ _ hra]

/-- Where the register holds the byte at SP already, POP only increments SP. -/
theorem exec_pop_of_get_eq_reg {s : State} {a : Byte} (ha : a.toNat < 8)
    (h : s.mem.get (s.reg SP).toNat = s.reg ⟨a.toNat, ha⟩) : exec (.pop a) s = .next (advance 2 (incSP s)) := by
  rw [exec_pop s ha, h, setReg_reg_eq_self]

/-- Settles O28: PUSH stores the register as it stands after the decrement, R7 too, so POP loads what the register holds
and only undoes the decrement of SP. -/
theorem pushThenPopRestoresTheRegister : Obligations.PushThenPopRestoresTheRegister := by
  intro s a ha
  refine ⟨_, _, exec_push s ha, exec_pop_of_get_eq_reg ha (get_set_self s.mem _ _), fun r => ?_, rfl⟩
  change (incSP (decSP s)).reg r = s.reg r
  rw [incSP_decSP]

/-! ## LD, and LDI followed by PRN -/

/-- Settles O29: LD is a register write of the byte at the second register's old value. -/
theorem ldLoadsRegisterIndirect : Obligations.LdLoadsRegisterIndirect := by
  intro s a b ha hb
  refine ⟨_, exec_ld s ha hb, rfl, ?_, onlyRegsChange_advance_setReg 3 _ _ s⟩
  rw [advance_reg, setReg_reg_self, memRead_byte]

/-- Settles O36: the register PRN reads is the one LDI wrote. -/
theorem ldiThenPrnEmitsTheImmediate : Obligations.LdiThenPrnEmitsTheImmediate := by
  intro s a imm ha
  refine ⟨_, _, exec_ldi s imm ha, exec_prn _ ha, ?_, rfl⟩
  rw [advance_out, emit_out, advance_reg, setReg_reg_self, advance_out, setReg_out]

end Sys2Proof.Machine
end

section
/-! PROOFS. Control transfer: the jumps (R99 to R101), CALL, RET and the return past a CALL (R97, R98). -/

namespace Sys2Proof.Machine

/-! ## The jumps -/

/-- To set the pc alone changes no register, memory byte, flag, output event or status. -/
theorem onlyRegsChange_nil_setPc (s : State) (n : Nat) : onlyRegsChange [] s { s with pc := n } :=
  ⟨fun _ _ => rfl, memSame_of_mem_eq rfl, rfl, rfl, rfl⟩

/-- Settles O33: each jump answers its state with another pc, JEQ and JNE by the clause on what reads the Equal flag. -/
theorem jumpsChangeOnlyTheProgramCounter : Obligations.JumpsChangeOnlyTheProgramCounter := by
  intro s a ha
  obtain ⟨-, hconditional, -⟩ := onlyCmpWritesFlagsAndNothingReadsLessOrGreater
  obtain ⟨hjeq, hjne⟩ := hconditional s a ha
  exact ⟨⟨_, exec_jmp s ha, rfl, onlyRegsChange_nil_setPc s _⟩, ⟨_, hjeq, rfl, onlyRegsChange_nil_setPc s _⟩,
    ⟨_, hjne, rfl, onlyRegsChange_nil_setPc s _⟩⟩

/-! ## CALL and RET -/

/-- Wherever an instruction executes the return address fits in a byte (R68, R97). -/
theorem returnAddress_toNat {s : State} (hpc : s.pc ≤ 253) : (returnAddress s).toNat = s.pc + 2 := by
  have hwrap : (returnAddress s).toNat = (s.pc + 2) % 256 := wrap8_toNat_of_modEq (by rw [Nat.cast_add]; rfl)
  rw [hwrap, Nat.mod_eq_of_lt (by omega)]

/-- A register operand read after the decrement of the stack pointer: R7 is the decremented value (D10). -/
theorem decSP_reg_operand (s : State) {a : Byte} (ha : a.toNat < 8) :
    (decSP s).reg ⟨a.toNat, ha⟩ = if a = 7 then (decSP s).reg SP else s.reg ⟨a.toNat, ha⟩ := by
  split
  next h7 => rw [(operandIndex_eq_SP_iff ha).2 h7]
  next hne => exact decSP_reg_ne s (mt (operandIndex_eq_SP_iff ha).1 hne)

/-- Settles O30: the target is read after the decrement, so it is the decremented SP where the operand is R7. -/
theorem callPushesTheReturnAddress : Obligations.CallPushesTheReturnAddress := by
  intro s a ha hpc
  have hSP := decSP_reg_SP_toNat s
  refine ⟨_, returnAddress s, exec_call s ha, hSP, ?_, returnAddress_toNat hpc, ?_,
    ⟨fun r hr => decSP_reg_ne s (List.ne_of_not_mem_cons hr), memSameExcept_of_mem_eq_set rfl, rfl, rfl, rfl⟩, hSP⟩
  · rw [← hSP, memRead_byte, jumpTo_mem, setMem_mem, get_set_self]
  · rw [jumpTo_pc, decSP_reg_operand, jumpTo_reg, setMem_reg, apply_ite BitVec.toNat]

/-- Settles O31: RET's equation, with the frame of the write to the stack pointer. -/
theorem retPopsTheProgramCounter : Obligations.RetPopsTheProgramCounter := fun s =>
  ⟨_, _, exec_ret s, memRead_byte s _, rfl, incSP_reg_SP_toNat _,
    fun _ hr => incSP_reg_ne _ (List.ne_of_not_mem_cons hr), memSame_of_mem_eq rfl, rfl, rfl, rfl⟩

/-- Settles O32: RET reads the return address, which CALL left at the decremented SP, and its increment undoes the
decrement. -/
theorem retReturnsPastItsCall : Obligations.RetReturnsPastItsCall := by
  intro s t u a ha hpc hcall hreg hbyte
  cases hcall.symm.trans (exec_call s ha)
  have hSP : u.reg SP = alu .dec (s.reg SP) 0 := hreg.trans (decSP_reg_SP s)
  have hret : u.mem.get (u.reg SP).toNat = returnAddress s := by
    rw [memRead_byte, memRead_byte, ← hreg] at hbyte
    injection hbyte with hget
    rw [hget, hreg]
    exact get_set_self s.mem _ _
  refine ⟨_, exec_ret u, ?_, ?_⟩
  · rw [incSP_pc, jumpTo_pc, hret, returnAddress_toNat hpc]
  · rw [incSP_reg_SP, jumpTo_reg, hSP, alu_inc_alu_dec]

end Sys2Proof.Machine
end

section
/-! PROOFS. Output: PRN and PRA append one event (R103, R104), and every number stands on its own line of the display
(R105). -/

namespace Sys2Proof.Machine

/-! ## The display -/

/-- Later events change no line that has ended. -/
theorem foldl_renderEvent_extends (later : List OutEvent) (d : Display) :
    d.lines <+: (later.foldl renderEvent d).lines := by
  induction later generalizing d with
  | nil => exact List.prefix_rfl
  | cons ev later ih => exact (renderEvent_extends d ev).trans (ih (renderEvent d ev))

/-- A longer output stream shows every line that had ended before. -/
theorem displayOf_append_extends (before later : List OutEvent) :
    (displayOf before).lines <+: (displayOf (before ++ later)).lines := by
  rw [displayOf, displayOf, List.foldl_append]
  exact foldl_renderEvent_extends later _

/-- The last event is shown on the display of those before it. -/
theorem displayOf_concat (before : List OutEvent) (ev : OutEvent) :
    displayOf (before ++ [ev]) = renderEvent (displayOf before) ev := List.foldl_concat ..

/-- Settles O50: the number is shown as a line that has ended, and such a line stays. -/
theorem everyNumberStandsOnItsOwnLine : Obligations.EveryNumberStandsOnItsOwnLine := by
  intro before later v
  have hnumber : displayOf (before ++ [.outDec v]) = ⟨(displayOf before).endLine.lines ++ [toString v.toNat], ""⟩ :=
    displayOf_concat before _
  obtain ⟨more, hmore⟩ := displayOf_append_extends (before ++ [.outDec v]) later
  rw [hnumber, List.append_assoc before] at hmore
  exact ⟨hnumber, more, hmore.symm⟩

/-! ## PRN and PRA -/

/-- To emit an event and advance changes no register, memory byte, flag or status. -/
theorem frame_advance_emit (n : Nat) (ev : OutEvent) (s : State) :
    regsSameExcept [] s (advance n (emit ev s)) ∧ memSame s (advance n (emit ev s)) ∧
      (advance n (emit ev s)).flags = s.flags ∧ (advance n (emit ev s)).status = s.status :=
  ⟨fun _ _ => rfl, memSame_of_mem_eq rfl, rfl, rfl⟩

/-- Settles O35: each is its equation, with the frame of an emit. -/
theorem prnAndPraEmitTheRegister : Obligations.PrnAndPraEmitTheRegister := fun s _ ha =>
  ⟨⟨_, exec_prn s ha, rfl, rfl, frame_advance_emit 2 _ s⟩, ⟨_, exec_pra s ha, rfl, rfl, frame_advance_emit 2 _ s⟩⟩

end Sys2Proof.Machine
end

section
/-! PROOFS. The order of the conditions of one step: the fetch, the opcode, operand `a`, operand `b` (R114). -/

namespace Sys2Proof.Machine

variable {m : Mnemonic} {s : State} {a b x : Byte}

/-! ## The register operands of a format (R50, R71) -/

/-- The first register operand of the formats that have one is the first operand byte. -/
theorem head?_regOperands_buildInstr (h : formatOf m ∈ [.R, .RR, .RI]) :
    (buildInstr m a b).regOperands.head? = some a := by
  cases m with
  | hlt | ret | st => exact absurd h (by decide)
  | ldi | prn | pra | mul | add | inc | dec | push | pop | call | cmp | jeq | jne | jmp | ld => rfl

/-- The register operands of the format RR are the two operand bytes. -/
theorem regOperands_buildInstr_of_RR (h : formatOf m = .RR) : (buildInstr m a b).regOperands = [a, b] := by
  cases m with
  | mul | add | cmp | ld => rfl
  | hlt | ldi | prn | pra | inc | dec | push | pop | call | ret | jeq | jne | jmp | st => exact absurd h (by decide)

/-! ## The order of the conditions -/

/-- The step on a fetched row of R55's table takes the fault of the first bad register operand (R72). -/
theorem step_of_firstBadRegister (hs : s.status = .running) (hf : fetches s (opcodeMap m) a b)
    (hx : firstBadRegister (buildInstr m a b) = some x) : step s = .next (takeFault (.badRegister x) s) :=
  (step_of_fetches_opcodeMap hs hf).trans (exec_of_firstBadRegister s hx)

/-- Settles O12: the fetch and the opcode are O10's and O9's clauses, and the register checks take `a` before `b`. -/
theorem firstConditionMetIsReported : Obligations.FirstConditionMetIsReported := by
  refine fun s hs => ⟨fun hpc => ⟨_, (fetchAtTheTopOfMemoryFaults s hs).2 hpc⟩, fun op a b hf => ⟨?_, ?_, ?_⟩⟩
  · exact ((cycleFetchesDecodesChecksExecutes opcodeMap s hs).2 op a b hf).1
  · rintro m rfl hfmt ha
    exact step_of_firstBadRegister hs hf (firstBadRegister_of_head (head?_regOperands_buildInstr hfmt) ha)
  · rintro m rfl hfmt ha hb
    exact step_of_firstBadRegister hs hf (firstBadRegister_of_second (regOperands_buildInstr_of_RR hfmt) ha hb)

end Sys2Proof.Machine
end

section
/-! PROOFS. Runs: what every step keeps holds along every run (R133), and where a run of a loaded image starts (R125 to
R128). -/

namespace Sys2Proof.Machine

variable {s t : State} {img : List Byte}

/-! ## Along a run -/

/-- What every step keeps, every run keeps. -/
theorem run_keeps {P : State → Prop} (hkeep : ∀ {s t}, step s = .next t → P s → P t) {k : Nat}
    (hrun : core.run k s = .next t) (hs : P s) : P t := by
  induction k generalizing s with
  | zero =>
    cases hrun
    exact hs
  | succ k ih =>
    obtain ⟨u, hu⟩ := everyStepAnswersANextState s
    rw [run_succ_of_step hu] at hrun
    exact ih hrun (hkeep hu hs)

/-- No step clears a flag: only an execution can write one, and it keeps those that are true (R84, R133). -/
theorem step_keeps_true_flags (h : step s = .next t) :
    (s.flags.E = true → t.flags.E = true) ∧ (s.flags.L = true → t.flags.L = true) ∧
      (s.flags.G = true → t.flags.G = true) := by
  rcases step_next_cases h with ⟨-, rfl⟩ | ⟨-, -, rfl⟩ | ⟨-, -, -, rfl⟩ | ⟨-, -, _, -, hexec⟩
  · exact ⟨id, id, id⟩
  · exact ⟨id, id, id⟩
  · exact ⟨id, id, id⟩
  · exact exec_keeps_true_flags hexec

/-- Settles O24: each flag is kept by every step, so along the run, and JEQ and JNE read the Equal flag at its end. -/
theorem noRunClearsAFlag : Obligations.NoRunClearsAFlag := by
  refine fun k s t hrun => ⟨?_, ?_, fun hs => ?_⟩
  · exact run_keeps (P := fun u => u.flags.L = true) (fun h => let ⟨_, hL, _⟩ := step_keeps_true_flags h; hL) hrun
  · exact run_keeps (P := fun u => u.flags.G = true) (fun h => let ⟨_, _, hG⟩ := step_keeps_true_flags h; hG) hrun
  · have hE : t.flags.E = true :=
      run_keeps (P := fun u => u.flags.E = true) (fun h => let ⟨hE, _, _⟩ := step_keeps_true_flags h; hE) hrun hs
    obtain ⟨-, hconditional, -⟩ := onlyCmpWritesFlagsAndNothingReadsLessOrGreater
    refine ⟨hE, fun a ha => ?_⟩
    obtain ⟨hjeq, hjne⟩ := hconditional t a ha
    rw [if_pos hE] at hjeq hjne
    exact ⟨hjne, hjeq⟩

/-! ## The load of an image -/

/-- An image that fits is loaded into the memory of the reset state (R127). -/
theorem boot_of_length_le (h : img.length ≤ 256) : boot img = some (State.reset.setMem (storeBytes 0 img [])) :=
  if_pos h

/-- Settles O39: the load sets the memory alone, and each of its cells holds the image's byte or 0x00. -/
theorem imageLoadFillsMemoryFromZero : Obligations.ImageLoadFillsMemoryFromZero := by
  refine fun img hlen => ⟨_, boot_of_length_le hlen, fun x hx => ?_, rfl, rfl, rfl, rfl, rfl⟩
  rw [memRead_ok _ hx, setMem_mem, get_storeBytes_zero_nil]

/-- The first fetch of a run latches the image's first three bytes, 0x00 beyond its end (R125, R127). -/
theorem fetch_of_boot (h : boot img = some s) : fetch s = .ok ⟨img.getD 0 0, img.getD 1 0, img.getD 2 0⟩ := by
  obtain ⟨-, rfl⟩ := boot_eq_some h
  have hpc : (State.reset.setMem (storeBytes 0 img [])).pc = 0 := rfl
  rw [fetch_ok _ (by omega), hpc, setMem_mem]
  simp only [get_storeBytes_zero_nil]

/-- Settles O40: the first fetch gives the first instruction, or, of no image at all, the opcode 0x00, which has no
row. -/
theorem runsStartAtAddressZero : Obligations.RunsStartAtAddressZero := by
  refine ⟨fun img s i hboot hd => ?_, ⟨State.reset.setMem [], rfl, ?_⟩, fun img hlen => if_neg (Nat.not_le.2 hlen)⟩
  · obtain ⟨-, rfl⟩ := boot_eq_some hboot
    exact cycle_exec rfl (fetch_of_boot hboot) hd
  · obtain ⟨-, hnoRow⟩ := unrecognizedOpcodeBytes
    exact cycle_unrecognized rfl (fetch_of_boot (img := []) rfl) (hnoRow 0 0).1

end Sys2Proof.Machine
end
